-- ==== Sys2Proof/Word.lean ====
section
/-! DEFINITION. The Word, the machine's only value type (00_scope.md R9, R14), and the byte of a program image. -/

namespace Sys2Proof

/-- A Word: 32 bits, two's complement, bit 31 the sign bit (R9).
DEDUCED, log 1: the spec itself marks two's complement as general knowledge. -/
abbrev Word := BitVec 32

/-- A byte of a program image (20_memory.md R39). The core itself has no bytes (R36, R40). -/
abbrev Byte := BitVec 8

/-- `wrap32(n)`: the unique Word congruent to `n` modulo 2^32 (R9). -/
def wrap32 (n : Int) : Word := BitVec.ofInt 32 n

end Sys2Proof
end

