-- ==== Sys2Proof/Config.lean ====
section
/-! DEFINITION. The construction parameters of 00_scope.md R7 and the free values the spec leaves open. -/

namespace Sys2Proof

/-- The eleven mnemonics (00_scope.md R2), the keys of the opcode map `OPC`. -/
inductive Mnemonic where
  | halt | nop | print | push | pop | add | jmp | jz | jnz | call | ret
deriving DecidableEq, Repr

/-- The parameter `OPC`: the numeric Word of each mnemonic (00_scope.md R7, 30_encoding.md R57).
The spec leaves the numbers open, so they are plain data and every rule holds for any distinct ones (log 2). -/
structure OpcodeMap where
  halt : Word
  nop : Word
  print : Word
  push : Word
  pop : Word
  add : Word
  jmp : Word
  jz : Word
  jnz : Word
  call : Word
  ret : Word
deriving DecidableEq, Repr

/-- The construction arguments of an engine (00_scope.md R7, 70_reset_and_hazards.md R109):
the two capacities, the largest program length and the opcode map. -/
structure Config where
  /-- `C_O`, the operand-stack capacity: any integer ≥ 0 (R7, R8). -/
  operandCap : Nat
  /-- `C_R`, the return-address-stack capacity: any integer ≥ 0, independent of `C_O` (R7, R8). -/
  returnCap : Nat
  /-- `PROG_CAP`, the largest program length: 1 to 2^31 − 1 (R7). -/
  progCap : Nat
  /-- `OPC` (R7). -/
  opc : OpcodeMap
deriving DecidableEq, Repr

/-- FREE VALUE, log 7: what an instruction latch holds between steps is unspecified (10_state.md R31).
Applied to the counter `State.draws`; no body, so that no proof can know a value of it. -/
opaque Config.freeLatch : Nat → Word

/-- FREE VALUE, log 13: the bytes a host sink writes for a Word other than 65 are open
(92_eei_decisions.md D6). No body. -/
opaque Config.freeRender : Word → List Byte

end Sys2Proof
end

