-- ==== Sys2Proof/Syntax.lean ====
section
/-! DEFINITION. The instruction set, one constructor per row of spec/opcode_table.json (00_scope.md R2, 30_encoding.md R57). -/

namespace Sys2Proof

/-- An instruction. An immediate is one whole Word, taken as it stands (30_encoding.md R55);
all other operands are implicit stack operands (R56). -/
inductive Instr where
  /-- HALT, format W1 (42_system.md R80). -/
  | halt
  /-- NOP, format W1 (42_system.md R81). -/
  | nop
  /-- PRINT, format W1 (43_stack_io.md R82). -/
  | print
  /-- PUSH imm, format W2 (43_stack_io.md R83). -/
  | push (imm : Word)
  /-- POP, format W1 (43_stack_io.md R84). -/
  | pop
  /-- ADD, format W1 (44_arith.md R86). -/
  | add
  /-- JMP, format W1 (45_control.md R89). -/
  | jmp
  /-- JZ imm, format W2 (45_control.md R90). -/
  | jz (imm : Word)
  /-- JNZ imm, format W2 (45_control.md R91). -/
  | jnz (imm : Word)
  /-- CALL imm, format W2 (45_control.md R92). -/
  | call (imm : Word)
  /-- RET, format W1 (45_control.md R93). -/
  | ret
deriving DecidableEq, Repr

/-- The mnemonic of an instruction. -/
def Instr.mnemonic : Instr → Mnemonic
  | .halt => .halt
  | .nop => .nop
  | .print => .print
  | .push _ => .push
  | .pop => .pop
  | .add => .add
  | .jmp => .jmp
  | .jz _ => .jz
  | .jnz _ => .jnz
  | .call _ => .call
  | .ret => .ret

/-- The immediate operands of an instruction, in program order: none or one Word (30_encoding.md R53). -/
def Instr.params : Instr → List Word
  | .push imm | .jz imm | .jnz imm | .call imm => [imm]
  | .halt | .nop | .print | .pop | .add | .jmp | .ret => []

end Sys2Proof
end

