-- ==== Sys2Proof/WellFormed.lean ====
section
/-! DEFINITION. The checks on what is given to the machine: the opcode map, the construction arguments, a program.

Every term of `Instr` is well-formed: an immediate may be any Word (30_encoding.md R55, R58). -/

namespace Sys2Proof

/-- The Words of an opcode map, in the order of the spec's table (30_encoding.md R57). -/
def OpcodeMap.words (opc : OpcodeMap) : List Word :=
  [opc.halt, opc.nop, opc.print, opc.push, opc.pop, opc.add, opc.jmp, opc.jz, opc.jnz, opc.call, opc.ret]

/-- The eleven `OPC` values are distinct (00_scope.md R7, 30_encoding.md R57). -/
def OpcodeMap.wf (opc : OpcodeMap) : Bool := decide opc.words.Nodup

/-- Legal construction arguments: 1 ≤ `PROG_CAP` ≤ 2^31 − 1 and distinct opcodes; any capacity is legal (00_scope.md R7, R8). -/
def Config.wf (c : Config) : Bool :=
  decide (1 ≤ c.progCap) && decide (c.progCap ≤ 2147483647) && c.opc.wf

/-- A program that LoadProgram accepts: 1 to `PROG_CAP` Words (20_memory.md R38, R45, R46). -/
def programWf (progCap : Nat) (ws : List Word) : Bool :=
  decide (1 ≤ ws.length) && decide (ws.length ≤ progCap)

end Sys2Proof
end

