-- ==== Sys2Proof/Decode.lean ====
section
/-! DEFINITION. Decoding Words to instructions and back (30_encoding.md), and the program image's bytes to Words
and back (20_memory.md R39). -/

namespace Sys2Proof

/-- Why a text of Words or bytes is rejected. -/
inductive DecodeError where
  /-- No Word to read an opcode from: a Fetch there raises OutOfBounds (41_engine_cycle.md R67). -/
  | noOpcode
  /-- The Word is not in the opcode set (30_encoding.md R58). -/
  | unknownOpcode
  /-- An arity-1 opcode with no Word after it: its operand Fetch raises OutOfBounds (41_engine_cycle.md R69). -/
  | noOperand
  /-- An image whose length is not a positive multiple of 4 (20_memory.md R39). -/
  | malformedEncoding
deriving DecidableEq, Repr

/-! ### The opcode map -/

/-- The eleven mnemonics in the order of the spec's table (30_encoding.md R57). -/
def Mnemonic.all : List Mnemonic :=
  [.halt, .nop, .print, .push, .pop, .add, .jmp, .jz, .jnz, .call, .ret]

/-- The opcode Word of a mnemonic. -/
def OpcodeMap.code (opc : OpcodeMap) : Mnemonic → Word
  | .halt => opc.halt
  | .nop => opc.nop
  | .print => opc.print
  | .push => opc.push
  | .pop => opc.pop
  | .add => opc.add
  | .jmp => opc.jmp
  | .jz => opc.jz
  | .jnz => opc.jnz
  | .call => opc.call
  | .ret => opc.ret

/-- The decided opcode numbers 0 to 10 (30_encoding.md R57 and opcode_table.json).
DESIGN CHOICE of the spec (92_eei_decisions.md D3), log 2. -/
def OpcodeMap.decided : OpcodeMap :=
  { halt := 0#32, nop := 1#32, print := 2#32, push := 3#32, pop := 4#32, add := 5#32, jmp := 6#32,
    jz := 7#32, jnz := 8#32, call := 9#32, ret := 10#32 }

/-- The mnemonic whose opcode is the whole Word `w`, if there is one: a decoder matches all 32 bits (30_encoding.md R57). -/
def opcodeOf (opc : OpcodeMap) (w : Word) : Option Mnemonic :=
  Mnemonic.all.find? fun m => opc.code m == w

/-- How many immediate Words follow a mnemonic's opcode Word (30_encoding.md R54, R57). -/
def Mnemonic.arity : Mnemonic → Nat
  | .halt | .nop | .print | .pop | .add | .jmp | .ret => 0
  | .push | .jz | .jnz | .call => 1

/-- Arity(op): a total function to 0, 1 or the failure UnknownOpcode (41_engine_cycle.md R68). -/
def arity (opc : OpcodeMap) (op : Word) : Except DecodeError Nat :=
  match opcodeOf opc op with
  | some m => .ok m.arity
  | none => .error .unknownOpcode

/-- Format W1: no immediate (30_encoding.md R53). -/
def formatW1 (i : Instr) : List Word → Option Instr
  | [] => some i
  | _ :: _ => none

/-- Format W2: one immediate, a whole Word (30_encoding.md R53, R55). -/
def formatW2 (mk : Word → Instr) : List Word → Option Instr
  | [imm] => some (mk imm)
  | _ => none

/-- The instruction of a mnemonic and its immediates; `none` when their number is not its arity (30_encoding.md R57). -/
def assemble : Mnemonic → List Word → Option Instr
  | .halt => formatW1 .halt
  | .nop => formatW1 .nop
  | .print => formatW1 .print
  | .push => formatW2 .push
  | .pop => formatW1 .pop
  | .add => formatW1 .add
  | .jmp => formatW1 .jmp
  | .jz => formatW2 .jz
  | .jnz => formatW2 .jnz
  | .call => formatW2 .call
  | .ret => formatW1 .ret

/-! ### Decoding and encoding instructions -/

/-- The instruction at the head of a list of Words, with the Words after it (30_encoding.md R53 to R58):
the opcode first, its arity next, the operand last. -/
def decode (opc : OpcodeMap) : List Word → Except DecodeError (Instr × List Word)
  | [] => .error .noOpcode
  | op :: rest =>
    match opcodeOf opc op with
    | none => .error .unknownOpcode
    | some m =>
      match assemble m (rest.take m.arity) with
      | none => .error .noOperand
      | some i => .ok (i, rest.drop m.arity)

/-- The Words of an instruction: format W1 or W2 (30_encoding.md R53). -/
def encode (opc : OpcodeMap) (i : Instr) : List Word :=
  opc.code i.mnemonic :: i.params

/-- The instruction the decoder reads from an instruction's bits, numbered as spec/opcode_table.json numbers them,
under the decided opcode numbers: bits 31..0 of `w` are the first Word, bits 63..32 the second, and every bit
from `nbits` up is 0. -/
def decodeTableWord (nbits w : Nat) : Option Instr :=
  match decode OpcodeMap.decided
      [BitVec.ofNat 32 (w % 2 ^ nbits), BitVec.ofNat 32 (w % 2 ^ nbits / 4294967296)] with
  | .ok (i, _) => some i
  | .error _ => none

/-! ### The program image -/

/-- The Word of four image bytes, the first in bits [31:24] (20_memory.md R39). -/
def wordOfBytes (b0 b1 b2 b3 : Byte) : Word := b0 ++ b1 ++ b2 ++ b3

/-- The four image bytes of a Word, the most significant first (20_memory.md R39). -/
def bytesOfWord (w : Word) : List Byte :=
  [w.extractLsb' 24 8, w.extractLsb' 16 8, w.extractLsb' 8 8, w.extractLsb' 0 8]

/-- The Words of a byte string in stream order; `none` when a partial Word is left over. -/
def imageWords : List Byte → Option (List Word)
  | [] => some []
  | b0 :: b1 :: b2 :: b3 :: rest => (imageWords rest).map (wordOfBytes b0 b1 b2 b3 :: ·)
  | _ => none

/-- DecodeImage(B): a pure function outside the core (20_memory.md R39, log 17). -/
def decodeImage (image : List Byte) : Except DecodeError (List Word) :=
  match imageWords image with
  | some (w :: ws) => .ok (w :: ws)
  | _ => .error .malformedEncoding

/-- The image of a program: big-endian, no header, footer or padding (20_memory.md R39, R41). -/
def encodeImage (ws : List Word) : List Byte := ws.flatMap bytesOfWord

end Sys2Proof
end

