-- ==== Sys2Proof/Machine/Reference.lean ====
section
/-! DEFINITION. The construction arguments of the reference (00_scope.md R7). -/

namespace Sys2Proof.Machine

/-- The reference's arguments: both capacities 1024 (00_scope.md R7; log 3), the largest `PROG_CAP` the spec allows
(DESIGN CHOICE, log 4), the decided opcode numbers (log 2). -/
def referenceConfig : Config :=
  { operandCap := 1024, returnCap := 1024, progCap := 2147483647, opc := OpcodeMap.decided }

end Sys2Proof.Machine
end

