-- ==== Sys2Proof/Machine/State.lean ====
section
/-! DEFINITION. The state of one engine (10_state.md R15 to R35), the reasons a step or a host request stops,
and the state after reset. -/

namespace Sys2Proof.Machine

/-! ### Errors -/

/-- The error kinds (60_exceptions.md R94). -/
inductive ErrorKind where
  /-- Push at full capacity: PUSH on `os`, CALL on `rs`. -/
  | stackOverflow
  /-- Pop on an empty stack: PRINT, POP, ADD, JMP, JZ, JNZ on `os`, RET on `rs`. -/
  | stackUnderflow
  /-- `pc` outside [0, `L`) during Fetch. -/
  | outOfBounds
  /-- A Jump target outside [0, `L`). -/
  | jumpOutOfBounds
  /-- A fetched opcode Word outside `OPC`. -/
  | unknownOpcode
  /-- LoadProgram of no Words; answered on the load path, never latched. -/
  | emptyProgram
  /-- A byte string that is no image; answered by DecodeImage, never latched. -/
  | malformedEncoding
deriving DecidableEq, Repr

/-! ### The engine's phase -/

/-- `status` (10_state.md R23). Running covers the document's Fetching and Executing (41_engine_cycle.md R74). -/
inductive Status where
  /-- Constructed, not yet run. -/
  | idle
  /-- The loop is stepping. -/
  | running
  /-- Terminal: HALT was fetched. -/
  | halted
  /-- Terminal: a step raised. -/
  | errored
deriving DecidableEq, Repr

/-! ### The stacks -/

/-- A bounded stack (10_state.md R27): the count `top` and the storage `slot`.
Its capacity is the number of its slots, stored once. -/
structure BoundedStack where
  top : Nat
  slot : List Word
deriving DecidableEq, Repr

/-- `S.cap`: the storage has exactly `C` slots (10_state.md R27). -/
def BoundedStack.cap (b : BoundedStack) : Nat := b.slot.length

/-- The logical content, bottom first, top last (10_state.md R27). -/
def BoundedStack.content (b : BoundedStack) : List Word := b.slot.take b.top

/-- The invariant 0 ≤ `top` ≤ `C` (10_state.md R27). -/
def BoundedStack.wf (b : BoundedStack) : Bool := decide (b.top ≤ b.cap)

/-- A stack as constructed: `top` = 0, slot `i` holding `fill i` (10_state.md R35: unspecified, so `fill` is any function). -/
def BoundedStack.create (cap : Nat) (fill : Nat → Word) : BoundedStack :=
  { top := 0, slot := (List.range cap).map fill }

/-! ### Program memory -/

/-- Program memory: the Word at address `a` is entry `a` of the list (20_memory.md R36, R37).
The list is its own canonical form (one list per memory, log 9). An address that is not listed does not exist. -/
abbrev Memory := List Word

/-- No more than `PROG_CAP` Words (20_memory.md R38). -/
def Memory.wf (progCap : Nat) (m : Memory) : Bool := decide (m.length ≤ progCap)

/-! ### The whole state -/

/-- The state of one engine (10_state.md R15), the latches of R31, and the static construction parameters (log 5). -/
structure State where
  /-- Program memory (R15). -/
  prog : Memory
  /-- LoadProgram has succeeded (R25). -/
  loaded : Bool
  /-- The index of the next Word to fetch (R18, R19). -/
  pc : Word
  /-- The operand stack `os` (R15, R27). -/
  os : BoundedStack
  /-- The return-address stack `rs` (R15, R27). -/
  rs : BoundedStack
  /-- The Words written to the output port, oldest first (R33). -/
  out : List Word
  /-- The phase register (R23). -/
  status : Status
  /-- The error-kind latch (R24). -/
  err : Option ErrorKind
  /-- The latch of the fetched opcode (R31); a free value between steps (log 7). -/
  op : Word
  /-- The latch of the fetched operand (R31); a free value between steps (log 7). -/
  imm : Word
  /-- The model's own counter of the free values drawn so far (log 8). -/
  draws : Nat
  /-- `PROG_CAP`, static (00_scope.md R7, log 5). -/
  progCap : Nat
  /-- `OPC`, static (00_scope.md R7, log 5). -/
  opc : OpcodeMap
deriving DecidableEq, Repr

/-- The program length `L` (10_state.md R15). -/
def State.progLen (s : State) : Nat := s.prog.length

/-- The construction arguments as the engine still holds them (00_scope.md R7). -/
def State.cfg (s : State) : Config :=
  { operandCap := s.os.cap, returnCap := s.rs.cap, progCap := s.progCap, opc := s.opc }

/-- Reset is the construction of an engine (70_reset_and_hazards.md R109, 10_state.md R35) from its arguments.
`fillO` and `fillR` are what the slots of the two stacks hold, which the spec leaves unspecified. -/
def State.construct (c : Config) (fillO fillR : Nat → Word) : State :=
  { prog := [], loaded := false, pc := 0#32,
    os := BoundedStack.create c.operandCap fillO, rs := BoundedStack.create c.returnCap fillR,
    out := [], status := .idle, err := none,
    op := 0#32, imm := 0#32, draws := 0, progCap := c.progCap, opc := c.opc }

/-- The machine right after reset: the reference's construction, every slot 0 (DESIGN CHOICE, log 6). -/
def State.reset : State := State.construct referenceConfig (fun _ => 0#32) (fun _ => 0#32)

/-! ### Why nothing comes next -/

/-- The statuses from which the spec gives no step (41_engine_cycle.md R73, R77). Only `step` answers these. Safe (log 11):
the machine stops where the hardware stops. -/
inductive Fault where
  /-- `step` in Idle: the loop runs only after Run (41_engine_cycle.md R76). Safe. -/
  | idle
  /-- `step` in Halted: terminal, no step leaves it (10_state.md R23). Safe. -/
  | halted
  /-- `step` in Errored: terminal, no step leaves it (60_exceptions.md R101). Safe. -/
  | errored
deriving DecidableEq, Repr

/-- What the model gives no meaning to. All safe: nothing is proved of what comes after. -/
inductive Refusal where
  /-- An instruction without a meaning, by its mnemonic. `exec` has no such arm. Safe. -/
  | notModelled (mnemonic : String)
  /-- LoadProgram while `loaded` = 1 (20_memory.md R46), by `loadProgram`. Safe. -/
  | reload
  /-- LoadProgram while Running, Halted or Errored (20_memory.md R46), by `loadProgram`. Safe. -/
  | loadNotIdle
  /-- LoadProgram of more than `PROG_CAP` Words (20_memory.md R46), by `loadProgram`. Safe. -/
  | programTooLong
  /-- Run while `loaded` = 0 (41_engine_cycle.md R77), by `startRun`. Safe. -/
  | runNotLoaded
  /-- Run while Running, Halted or Errored (41_engine_cycle.md R77), by `startRun`. Safe. -/
  | runNotIdle
  /-- A direct Execute with a wrong number of parameters (41_engine_cycle.md R72), by `directExecute`. Safe. -/
  | arityMismatch
deriving DecidableEq, Repr

end Sys2Proof.Machine
end

