-- ==== Sys2Proof/Machine/Ops.lean ====
section
/-! DEFINITION. The named operations over the state: the bounded-stack controller (40_stack_controller.md), program memory,
Jump (41_engine_cycle.md R70), the output port, and error entry (60_exceptions.md R98). -/

namespace Sys2Proof.Machine

/-! ### Codes the host reads -/

/-- The code of a kind (60_exceptions.md R94; the codes are the spec's choice D7). -/
def ErrorKind.code : ErrorKind → Nat
  | .stackOverflow => 1
  | .stackUnderflow => 2
  | .outOfBounds => 3
  | .jumpOutOfBounds => 4
  | .unknownOpcode => 5
  | .emptyProgram => 6
  | .malformedEncoding => 7

/-- Codes 1 to 5 are run errors and are latched in `err`; 6 and 7 never are (60_exceptions.md R94). -/
def ErrorKind.isRunError (e : ErrorKind) : Bool := decide (e.code ≤ 5)

/-- The error kind that stands for a rejection by the decoder (60_exceptions.md R94, 41_engine_cycle.md R73). -/
def ErrorKind.ofDecodeError : DecodeError → ErrorKind
  | .noOpcode => .outOfBounds
  | .unknownOpcode => .unknownOpcode
  | .noOperand => .outOfBounds
  | .malformedEncoding => .malformedEncoding

/-- The error latch as the host reads it: 0 when there is none (10_state.md R24, 60_exceptions.md R94). -/
def errCode (err : Option ErrorKind) : Nat :=
  match err with
  | none => 0
  | some e => e.code

/-- The code of a status (10_state.md R23; the encoding is the spec's choice D2). -/
def Status.code : Status → Nat
  | .idle => 0
  | .running => 1
  | .halted => 2
  | .errored => 3

/-! ### Results -/

/-- How an operation ends: with a value, or with `raise` (00_scope.md R12).
Either way the state holds every write made so far: there is no rollback. -/
inductive Result (α : Type) where
  | ok (a : α) (s : State)
  | raise (e : ErrorKind) (s : State)
deriving DecidableEq, Repr

/-- One operation after another; a raise skips everything after it (00_scope.md R12). -/
def Result.bind {α β : Type} (r : Result α) (f : α → State → Result β) : Result β :=
  match r with
  | .ok a s => f a s
  | .raise e s => .raise e s

/-! ### Updates of one component -/

/-- `pc <- v` (00_scope.md R10). -/
def State.setPc (s : State) (v : Word) : State := { s with pc := v }

/-- The two stacks by name (10_state.md R16, R28). -/
inductive StackName where
  /-- `os` -/
  | operand
  /-- `rs` -/
  | ret
deriving DecidableEq, Repr

/-- The stack of a name. -/
def State.stack (s : State) : StackName → BoundedStack
  | .operand => s.os
  | .ret => s.rs

/-- The state with one stack replaced; the two are separate storage (10_state.md R16). -/
def State.setStack (s : State) (n : StackName) (b : BoundedStack) : State :=
  match n with
  | .operand => { s with os := b }
  | .ret => { s with rs := b }

/-- OutWrite(v): `out <- out ++ [v]`, complete at once and never failing (00_scope.md R10, 10_state.md R33, log 13). -/
def State.outWrite (s : State) (v : Word) : State := { s with out := s.out ++ [v] }

/-- The opcode latch takes the fetched opcode (10_state.md R31). -/
def State.latchOp (s : State) (w : Word) : State := { s with op := w }

/-- The operand latch takes the fetched operand, if one was fetched (10_state.md R31). -/
def State.latchImm (s : State) (params : List Word) : State :=
  match params with
  | w :: _ => { s with imm := w }
  | [] => s

/-- At the end of a step the latches hold unspecified Words (10_state.md R31): two fresh free values (log 7, log 8). -/
def State.releaseLatches (s : State) : State :=
  { s with op := Config.freeLatch s.draws, imm := Config.freeLatch (s.draws + 1), draws := s.draws + 2 }

/-- HALT's effect in a run: `status <- Halted`, nothing else (41_engine_cycle.md R73, 42_system.md R80). -/
def State.halt (s : State) : State := { s with status := .halted }

/-! ### Error entry

There is no handler, no saved state and no return from an error (60_exceptions.md R101): the operation below is all of it. -/

/-- On raise E: `err <- E`, `status <- Errored`, nothing else (60_exceptions.md R98). -/
def State.enterError (s : State) (e : ErrorKind) : State := { s with err := some e, status := .errored }

/-- How a step ends after its last operation: as that left the state, or with error entry (41_engine_cycle.md R73). -/
def settle (r : Result Unit) : Host.Outcome State Fault Refusal :=
  match r with
  | .ok _ s => .next s
  | .raise e s => .next (s.enterError e)

/-- An outcome with its next state mapped. -/
def mapNext (f : State → State) (o : Host.Outcome State Fault Refusal) : Host.Outcome State Fault Refusal :=
  match o with
  | .next s => .next (f s)
  | .fault r => .fault r
  | .refused r => .refused r

/-- The statuses in which no step is taken, each by its name; `none` while Running (41_engine_cycle.md R73, R77, log 11). -/
def stepGate : Status → Option Fault
  | .running => none
  | .idle => some .idle
  | .halted => some .halted
  | .errored => some .errored

/-! ### The bounded-stack controller -/

/-- Push(S, v) on one stack; `none` is StackOverflow, S unchanged (40_stack_controller.md R61). -/
def BoundedStack.push (b : BoundedStack) (v : Word) : Option BoundedStack :=
  if b.top = b.cap then none else some { top := b.top + 1, slot := b.slot.set b.top v }

/-- Pop(S) on one stack; `none` is StackUnderflow, S unchanged; the vacated slot keeps its Word (40_stack_controller.md R62).
A `top` beyond the storage, which no run reaches, answers `none` too (log 19). -/
def BoundedStack.pop (b : BoundedStack) : Option (Word × BoundedStack) :=
  if b.top = 0 then none
  else match b.slot[b.top - 1]? with
    | some v => some (v, { b with top := b.top - 1 })
    | none => none

/-- Push(S, v) in the engine: raises StackOverflow when S is full (40_stack_controller.md R61). -/
def push (n : StackName) (v : Word) (s : State) : Result Unit :=
  match (s.stack n).push v with
  | some b => .ok () (s.setStack n b)
  | none => .raise .stackOverflow s

/-- Pop(S) in the engine: raises StackUnderflow when S is empty (40_stack_controller.md R62). -/
def pop (n : StackName) (s : State) : Result Word :=
  match (s.stack n).pop with
  | some (v, b) => .ok v (s.setStack n b)
  | none => .raise .stackUnderflow s

/-! ### Program memory and Jump -/

/-- 0 ≤ a < L, the signed comparison of Words (00_scope.md R9, 41_engine_cycle.md R67, R70). -/
def inBounds (len : Nat) (a : Word) : Bool := decide (0 ≤ a.toInt) && decide (a.toInt < len)

/-- MemRead(a, 1): the Word at address `a`; no other address exists (00_scope.md R11, 20_memory.md R36). -/
def Memory.read (m : Memory) (a : Word) : Option Word :=
  if inBounds m.length a then m[a.toInt.toNat]? else none

/-- Jump(addr): the bounds check, then `pc <- addr`; a failed check leaves `pc` (41_engine_cycle.md R70, log 12). -/
def jump (addr : Word) (s : State) : Result Unit :=
  if inBounds s.progLen addr then .ok () (s.setPc addr) else .raise .jumpOutOfBounds s

end Sys2Proof.Machine
end

