-- ==== Sys2Proof/Machine/Operands.lean ====
section
/-! DEFINITION. The operand forms: an immediate is the Word the decoder read, as it stands (30_encoding.md R55);
every other operand is the top of a stack (R56). -/

namespace Sys2Proof.Machine

/-- The operand of PRINT, POP, ADD, JMP, JZ and JNZ: popped from `os` (30_encoding.md R56, 10_state.md R28). -/
def popOperand (s : State) : Result Word := pop .operand s

/-- The result of PUSH and ADD: pushed on `os` (10_state.md R28). -/
def pushOperand (v : Word) (s : State) : Result Unit := push .operand v s

/-- RET's target: popped from `rs` (30_encoding.md R56, 10_state.md R28). -/
def popReturn (s : State) : Result Word := pop .ret s

/-- CALL's link: pushed on `rs` (10_state.md R28). -/
def pushReturn (v : Word) (s : State) : Result Unit := push .ret v s

end Sys2Proof.Machine
end

