-- ==== Sys2Proof/Machine/Arith.lean ====
section
/-! DEFINITION. The opcode ALU: ADD (44_arith.md). -/

namespace Sys2Proof.Machine

/-- a + b as wrap32 of the exact signed sum; no trap, no flag (44_arith.md R85). -/
def aluAdd (a b : Word) : Word := wrap32 (a.toInt + b.toInt)

/-- ExecADD: a <- Pop(os), b <- Pop(os), Push(os, wrap32(a + b)); a failed second pop has lost a (44_arith.md R86). -/
def executeAdd (s : State) : Result Unit :=
  (popOperand s).bind fun a s1 => (popOperand s1).bind fun b s2 => pushOperand (aluAdd a b) s2

/-- ADD in a step. -/
def execAdd (s : State) : Host.Outcome State Fault Refusal := settle (executeAdd s)

end Sys2Proof.Machine
end

