-- ==== Sys2Proof/Machine/Flags.lean ====
section
/-! DEFINITION. The machine has no flags (10_state.md R22). What stands in their place is the zero test of a popped Word. -/

namespace Sys2Proof.Machine

/-- The zero test of JZ and JNZ: the whole Word compared with 0 (44_arith.md R85, 10_state.md R22). -/
def isZero (v : Word) : Bool := v == 0#32

end Sys2Proof.Machine
end

