-- ==== Sys2Proof/Machine/Control.lean ====
section
/-! DEFINITION. Control transfer: JMP, JZ, JNZ, CALL, RET (45_control.md).
Each stack effect comes before the bounds check and stands when the check fails (R88, log 12). -/

namespace Sys2Proof.Machine

/-- ExecJMP: t <- Pop(os), Jump(t) (45_control.md R89). -/
def executeJmp (s : State) : Result Unit := (popOperand s).bind fun t s1 => jump t s1

/-- JMP in a step. -/
def execJmp (s : State) : Host.Outcome State Fault Refusal := settle (executeJmp s)

/-- ExecJZ(imm): v <- Pop(os), Jump(imm) if v is 0; else the target is not checked (45_control.md R90). -/
def executeJz (imm : Word) (s : State) : Result Unit :=
  (popOperand s).bind fun v s1 => if isZero v then jump imm s1 else .ok () s1

/-- JZ in a step. -/
def execJz (imm : Word) (s : State) : Host.Outcome State Fault Refusal := settle (executeJz imm s)

/-- ExecJNZ(imm): v <- Pop(os), Jump(imm) if v is not 0; else the target is not checked (45_control.md R91). -/
def executeJnz (imm : Word) (s : State) : Result Unit :=
  (popOperand s).bind fun v s1 => if isZero v then .ok () s1 else jump imm s1

/-- JNZ in a step. -/
def execJnz (imm : Word) (s : State) : Host.Outcome State Fault Refusal := settle (executeJnz imm s)

/-- ExecCALL(imm): Push(rs, pc), Jump(imm); in a step `pc` is A + 2 here (45_control.md R92). -/
def executeCall (imm : Word) (s : State) : Result Unit :=
  (pushReturn s.pc s).bind fun _ s1 => jump imm s1

/-- CALL in a step. -/
def execCall (imm : Word) (s : State) : Host.Outcome State Fault Refusal := settle (executeCall imm s)

/-- ExecRET: t <- Pop(rs), Jump(t) (45_control.md R93). -/
def executeRet (s : State) : Result Unit := (popReturn s).bind fun t s1 => jump t s1

/-- RET in a step. -/
def execRet (s : State) : Host.Outcome State Fault Refusal := settle (executeRet s)

end Sys2Proof.Machine
end

