-- ==== Sys2Proof/Machine/StackIo.lean ====
section
/-! DEFINITION. The operand-stack and output instructions PRINT, PUSH and POP (43_stack_io.md). -/

namespace Sys2Proof.Machine

/-- ExecPRINT: v <- Pop(os), OutWrite(v) (43_stack_io.md R82). -/
def executePrint (s : State) : Result Unit :=
  (popOperand s).bind fun v s1 => .ok () (s1.outWrite v)

/-- PRINT in a step. -/
def execPrint (s : State) : Host.Outcome State Fault Refusal := settle (executePrint s)

/-- ExecPUSH(imm): Push(os, imm) (43_stack_io.md R83). -/
def executePush (imm : Word) (s : State) : Result Unit := pushOperand imm s

/-- PUSH in a step. -/
def execPush (imm : Word) (s : State) : Host.Outcome State Fault Refusal := settle (executePush imm s)

/-- ExecPOP: v <- Pop(os), v is discarded (43_stack_io.md R84). -/
def executePop (s : State) : Result Unit :=
  (popOperand s).bind fun _ s1 => .ok () s1

/-- POP in a step. -/
def execPop (s : State) : Host.Outcome State Fault Refusal := settle (executePop s)

end Sys2Proof.Machine
end

