-- ==== Sys2Proof/Machine/System.lean ====
section
/-! DEFINITION. The system instructions HALT and NOP (42_system.md).

In this file and its like, `execute<X>` is the Execute arm, which reports a raise to its caller (41_engine_cycle.md R71, R72),
and `exec<X>` is what the arm does inside a step, error entry included (R73). -/

namespace Sys2Proof.Machine

/-- ExecHALT: no state written; reached only by a direct Execute (42_system.md R80). -/
def executeHalt (s : State) : Result Unit := .ok () s

/-- HALT in a step: `status <- Halted` instead of Execute (41_engine_cycle.md R73, 42_system.md R80). -/
def execHalt (s : State) : Host.Outcome State Fault Refusal := .next s.halt

/-- ExecNOP: no state written (42_system.md R81). -/
def executeNop (s : State) : Result Unit := .ok () s

/-- NOP in a step. -/
def execNop (s : State) : Host.Outcome State Fault Refusal := settle (executeNop s)

end Sys2Proof.Machine
end

