-- ==== Sys2Proof/Machine/Dispatch.lean ====
section
/-! DEFINITION. What each instruction does inside a step (41_engine_cycle.md R71, R73), one arm per constructor. -/

namespace Sys2Proof.Machine

/-- The execute half of a step: on entry `pc` = A + 1 + arity (41_engine_cycle.md R73); a raise enters the error (60_exceptions.md R98). -/
def exec (i : Instr) (s : State) : Host.Outcome State Fault Refusal :=
  match i with
  | .halt => Sys2Proof.Machine.execHalt s
  | .nop => Sys2Proof.Machine.execNop s
  | .print => Sys2Proof.Machine.execPrint s
  | .push imm => Sys2Proof.Machine.execPush imm s
  | .pop => Sys2Proof.Machine.execPop s
  | .add => Sys2Proof.Machine.execAdd s
  | .jmp => Sys2Proof.Machine.execJmp s
  | .jz imm => Sys2Proof.Machine.execJz imm s
  | .jnz imm => Sys2Proof.Machine.execJnz imm s
  | .call imm => Sys2Proof.Machine.execCall imm s
  | .ret => Sys2Proof.Machine.execRet s

end Sys2Proof.Machine
end

