-- ==== Sys2Proof/Machine/Fetch.lean ====
section
/-! DEFINITION. The fetch half of a step: Fetch, LoadParams, and the opcode, arity and operand sequence
(41_engine_cycle.md R67 to R69, R73). -/

namespace Sys2Proof.Machine

/-- Fetch(): OutOfBounds with `pc` unchanged, or the Word at `pc` with `pc` advanced by 1 (41_engine_cycle.md R67). -/
def fetch (s : State) : Result Word :=
  match s.prog.read s.pc with
  | some w => .ok w (s.setPc (s.pc + 1#32))
  | none => .raise .outOfBounds s

/-- LoadParams(n): Fetch exactly n times, a raise propagating at once (41_engine_cycle.md R69). -/
def loadParams : Nat → State → Result (List Word)
  | 0, s => .ok [] s
  | n + 1, s =>
    (fetch s).bind fun w s1 => (loadParams n s1).bind fun ws s2 => .ok (w :: ws) s2

/-- The fetch half of Step: opcode Fetch, Arity, LoadParams, each raise with the `pc` it leaves (41_engine_cycle.md R73).
`assemble` answers `none` on no input that gets there, as the `other` arm of Execute (R71, log 23). -/
def fetchInstr (s : State) : Result Instr :=
  (fetch s).bind fun op s1 =>
    match opcodeOf s.opc op with
    | none => .raise .unknownOpcode (s1.latchOp op)
    | some m =>
      (loadParams m.arity (s1.latchOp op)).bind fun params s2 =>
        match assemble m params with
        | some i => .ok i (s2.latchImm params)
        | none => .raise .unknownOpcode (s2.latchImm params)

end Sys2Proof.Machine
end

