-- ==== Sys2Proof/Machine/Step.lean ====
section
/-! DEFINITION. One step of the machine, one whole instruction (41_engine_cycle.md R73). -/

namespace Sys2Proof.Machine

/-- Step(): taken while Running. Fetch the instruction and execute it, or enter the error a fetch raised; then the latches are
released (10_state.md R31, log 7). In any other status no step is taken (R77, log 11). -/
def step (s : State) : Host.Outcome State Fault Refusal :=
  match stepGate s.status with
  | some f => .fault f
  | none =>
    match fetchInstr s with
    | .ok i s1 => mapNext State.releaseLatches (exec i s1)
    | .raise e s1 => .next (s1.enterError e).releaseLatches

/-- `s` with an instruction of spec/opcode_table.json stored where `step` fetches next: its two Words (bits 31..0 and 63..32 of
`w`, every bit from `nbits` up being 0) at `pc` and `pc` + 1, program memory made long enough, the decided opcode numbers, the
engine loaded and Running. It stands for construction, LoadProgram and Run (log 10). -/
def State.withFetchWord (s : State) (nbits w : Nat) : State :=
  let at0 := s.pc.toNat
  let long := s.prog ++ List.replicate (at0 + 2 - s.prog.length) 0#32
  { s with
    prog := (long.set at0 (BitVec.ofNat 32 (w % 2 ^ nbits))).set (at0 + 1)
      (BitVec.ofNat 32 (w % 2 ^ nbits / 4294967296))
    loaded := true
    status := .running
    opc := OpcodeMap.decided }

end Sys2Proof.Machine
end

