-- ==== Sys2Proof/Machine/Execute.lean ====
section
/-! DEFINITION. The instruction-dispatch multiplexer Execute (41_engine_cycle.md R71) and its direct application, the model's
test hook (R72, log 14). -/

namespace Sys2Proof.Machine

/-- The Execute arm of an instruction, a raise reported to the caller (41_engine_cycle.md R71). -/
def execute (i : Instr) (s : State) : Result Unit :=
  match i with
  | .halt => executeHalt s
  | .nop => executeNop s
  | .print => executePrint s
  | .push imm => executePush imm s
  | .pop => executePop s
  | .add => executeAdd s
  | .jmp => executeJmp s
  | .jz imm => executeJz imm s
  | .jnz imm => executeJnz imm s
  | .call imm => executeCall imm s
  | .ret => executeRet s

/-- Execute(op, params) applied directly to a state: no Fetch, and no error entry (41_engine_cycle.md R71, R72).
An unknown opcode raises UnknownOpcode; a wrong number of parameters is refused. -/
def directExecute (op : Word) (params : List Word) (s : State) :
    Host.Outcome (Result Unit) Fault Refusal :=
  match opcodeOf s.opc op with
  | none => .next (.raise .unknownOpcode s)
  | some m =>
    match assemble m params with
    | some i => .next (execute i s)
    | none => .refused .arityMismatch

end Sys2Proof.Machine
end

