-- ==== Sys2Proof/Machine/HostPort.lean ====
section
/-! DEFINITION. The host's side of the engine (10_state.md R32, 70_reset_and_hazards.md R113): LoadProgram, Run, and the sink. -/

namespace Sys2Proof.Machine

/-! ### load -/

/-- LoadProgram(ws) (20_memory.md R45): a full copy of `ws`, `loaded` = 1, nothing else; EmptyProgram for no Words, with
nothing changed; refused where the spec gives no meaning (R46, log 15).
The answer is `none` for ok and the error kind otherwise. -/
def loadProgram (ws : List Word) (s : State) : Host.Outcome (Option ErrorKind × State) Fault Refusal :=
  if s.status ≠ .idle then .refused .loadNotIdle
  else if s.loaded then .refused .reload
  else if !Memory.wf s.progCap ws then .refused .programTooLong
  else match ws with
    | [] => .next (some .emptyProgram, s)
    | _ :: _ => .next (none, { s with prog := ws, loaded := true })

/-- The load path from an image (70_reset_and_hazards.md R111): DecodeImage, then LoadProgram;
MalformedEncoding stops before the engine is touched (20_memory.md R39). -/
def loadImage (image : List Byte) (s : State) : Host.Outcome (Option ErrorKind × State) Fault Refusal :=
  match decodeImage image with
  | .ok ws => loadProgram ws s
  | .error e => .next (some (.ofDecodeError e), s)

/-! ### run -/

/-- The start of Run (41_engine_cycle.md R76): `status <- Running` from a loaded Idle engine; refused otherwise (R77, log 15). -/
def startRun (s : State) : Host.Outcome State Fault Refusal :=
  if s.status ≠ .idle then .refused .runNotIdle
  else if !s.loaded then .refused .runNotLoaded
  else .next { s with status := .running }

/-- The loop of Run, `while status == Running: Step()` (41_engine_cycle.md R76), for at most `fuel` steps.
Fuel is the model's, not the engine's: a state that is still Running when it is spent is not an end (R78, log 21). -/
def runFor : Nat → State → Host.Outcome State Fault Refusal
  | 0, s => .next s
  | fuel + 1, s =>
    if s.status = .running then
      match step s with
      | .next t => runFor fuel t
      | .fault r => .fault r
      | .refused r => .refused r
    else .next s

/-- What Run returns when the run has ended: `none` for success (Halted), or the first error; nothing while it has not ended
(41_engine_cycle.md R76, 70_reset_and_hazards.md R112). -/
def runAnswer (s : State) : Option (Option ErrorKind) :=
  match s.status with
  | .halted => some none
  | .errored => some s.err
  | .idle | .running => none

/-! ### outport -/

/-- `RENDER`: the bytes a host sink writes for one output Word. Only the Word 65, the character 'A', is fixed
(00_scope.md R7, 10_state.md R33); every other rendering is a free value (log 13). PRESUMED: 'A' is the byte 0x41. -/
def render (w : Word) : List Byte :=
  if w = 65#32 then [0x41#8] else Config.freeRender w

/-- What the sink holds after the Words of `out`, in order (10_state.md R33). -/
def sinkBytes (out : List Word) : List Byte := out.flatMap render

end Sys2Proof.Machine
end

