-- ==== Sys2Proof/Safety.lean ====
section
/-! DEFINITION. The terms claims are stated in: the invariant of an engine, reachability, what can be observed, and runs of pushes
and pops. -/

namespace Sys2Proof.Machine

/-! ### The invariant of an engine in use -/

/-- What holds of an engine from its construction on, through every load, start and step. -/
structure Inv (s : State) : Prop where
  /-- The construction arguments are legal (00_scope.md R7). -/
  cfgLegal : s.cfg.wf = true
  /-- `L` ≤ `PROG_CAP` (20_memory.md R38). -/
  progFits : s.prog.wf s.progCap = true
  /-- `L` ≥ 1 exactly when a program is loaded (20_memory.md R38, 10_state.md R25, R35). -/
  loadedIff : s.loaded = true ↔ 1 ≤ s.progLen
  /-- 0 ≤ `pc` ≤ `L` (10_state.md R21). -/
  pcLow : 0 ≤ s.pc.toInt
  /-- 0 ≤ `pc` ≤ `L` (10_state.md R21). -/
  pcHigh : s.pc.toInt ≤ s.progLen
  /-- `os.top` ≤ `C_O` (10_state.md R27). -/
  osWf : s.os.wf = true
  /-- `rs.top` ≤ `C_R` (10_state.md R27). -/
  rsWf : s.rs.wf = true
  /-- `rs` holds only return addresses, each in [2, `L`] (10_state.md R30). -/
  rsReturnAddresses : ∀ v ∈ s.rs.content, 2 ≤ v.toInt ∧ v.toInt ≤ s.progLen
  /-- Only a loaded engine has left Idle (41_engine_cycle.md R76). -/
  startedLoaded : s.status ≠ .idle → s.loaded = true
  /-- The error latch is set exactly in Errored (10_state.md R24). -/
  errIff : s.err ≠ none ↔ s.status = .errored
  /-- Only run errors are latched (60_exceptions.md R94). -/
  errRun : ∀ e, s.err = some e → e.isRunError = true

/-- The states of an engine that the host and its own steps can produce (70_reset_and_hazards.md R113). -/
inductive Reachable : State → Prop where
  /-- Construction, with whatever the slots hold (R109). -/
  | construct (c : Config) (fillO fillR : Nat → Word) (h : c.wf = true) : Reachable (State.construct c fillO fillR)
  /-- A load that the model gives a meaning, whatever it answers (20_memory.md R45). -/
  | load {s t : State} {ws : List Word} {answer : Option ErrorKind} (hs : Reachable s)
      (h : loadProgram ws s = .next (answer, t)) : Reachable t
  /-- The start of a run (41_engine_cycle.md R76). -/
  | start {s t : State} (hs : Reachable s) (h : startRun s = .next t) : Reachable t
  /-- A step (41_engine_cycle.md R73). -/
  | step {s t : State} (hs : Reachable s) (h : step s = .next t) : Reachable t

/-- The state in which the execute half of a step starts: `pc` past the instruction's Words, the latches holding them
(41_engine_cycle.md R73, 10_state.md R31). -/
def State.fetched (s : State) (i : Instr) : State :=
  ({ s with pc := s.pc + BitVec.ofNat 32 (1 + i.params.length), op := s.opc.code i.mnemonic }).latchImm i.params

/-- The Words of program memory from `pc` on: what a step decodes (10_state.md R19). -/
def State.upcoming (s : State) : List Word := s.prog.drop s.pc.toInt.toNat

/-! ### What can be observed -/

/-- A stack with its idle slots blanked: its count, its capacity and its content are left (10_state.md R29). -/
def BoundedStack.blankIdle (b : BoundedStack) : BoundedStack :=
  { b with slot := b.content ++ List.replicate (b.cap - b.top) 0#32 }

/-- A state with everything unobservable blanked: idle slots, the latches and the model's counter (10_state.md R29, R31). -/
def State.visible (s : State) : State :=
  { s with os := s.os.blankIdle, rs := s.rs.blankIdle, op := 0#32, imm := 0#32, draws := 0 }

/-! ### Sequences of pushes and pops -/

/-- Push the Words of a list in order; `none` when one of them overflows. -/
def pushAll : List Word → BoundedStack → Option BoundedStack
  | [], b => some b
  | v :: vs, b =>
    match b.push v with
    | some b' => pushAll vs b'
    | none => none

/-- Pop `n` Words, in the order they come; `none` when one of them underflows. -/
def popMany : Nat → BoundedStack → Option (List Word × BoundedStack)
  | 0, b => some ([], b)
  | n + 1, b =>
    match b.pop with
    | none => none
    | some (v, b') =>
      match popMany n b' with
      | some (vs, b'') => some (v :: vs, b'')
      | none => none

end Sys2Proof.Machine
end

