-- ==== Sys2Proof/Certificates/Slice0/Obligations.lean ====
section
/-! DEFINITION. The statements for the provers. Each docstring names the rule of spec/ it formalises. -/

open Sys2Proof Sys2Proof.Machine

/-! ### Encoding -/

/-- 30_encoding.md R53 to R58: for every distinct opcode numbers and every instruction with every immediate,
decoding the encoding gives the instruction back and leaves the Words after it. -/
def Obligations.DecodeOfEncodeIsTheInstruction : Prop :=
  ∀ (opc : OpcodeMap) (i : Instr) (rest : List Word), opc.wf = true →
    decode opc (encode opc i ++ rest) = .ok (i, rest)

/-- 30_encoding.md R53 to R58: Words that decode are the encoding of what they decode to, so no two texts decode alike. -/
def Obligations.EncodeOfDecodeIsTheWords : Prop :=
  ∀ (opc : OpcodeMap) (ws rest : List Word) (i : Instr),
    decode opc ws = .ok (i, rest) → ws = encode opc i ++ rest

/-- 30_encoding.md R57, R59 under the decided numbers (the spec's decision D3, log 2): Words written out from the table. -/
def Obligations.DecidedWordsDecode : Prop :=
  decode OpcodeMap.decided [0x00000003#32, 0x00000041#32] = .ok (.push 65#32, []) ∧
  decode OpcodeMap.decided [0x00000007#32, 0xFFFFFFFF#32] = .ok (.jz (-1#32), []) ∧
  decode OpcodeMap.decided [0x00000002#32] = .ok (.print, []) ∧
  decode OpcodeMap.decided [0x00000000#32] = .ok (.halt, []) ∧
  decode OpcodeMap.decided [0x00000005#32] = .ok (.add, []) ∧
  decode OpcodeMap.decided [0x00000009#32, 0x00000003#32] = .ok (.call 3#32, []) ∧
  decode OpcodeMap.decided [0x0000000A#32] = .ok (.ret, []) ∧
  decode OpcodeMap.decided [0x0000000B#32] = .error .unknownOpcode

/-- 41_engine_cycle.md R68, for any distinct `OPC`: the eleven opcodes have their listed arity, every other Word is UnknownOpcode. -/
def Obligations.ArityIsTotalAndStable : Prop :=
  ∀ opc : OpcodeMap, opc.wf = true →
    (∀ w ∈ [opc.halt, opc.nop, opc.print, opc.pop, opc.add, opc.jmp, opc.ret], arity opc w = .ok 0) ∧
    (∀ w ∈ [opc.push, opc.jz, opc.jnz, opc.call], arity opc w = .ok 1) ∧
    (∀ w : Word, w ∉ [opc.halt, opc.nop, opc.print, opc.push, opc.pop, opc.add, opc.jmp, opc.jz, opc.jnz, opc.call, opc.ret] →
      arity opc w = .error .unknownOpcode)

/-- 20_memory.md R39: an image is malformed exactly when its length is 0 or no multiple of 4; otherwise Word k has bytes
4k to 4k+3 in its bits [31:24], [23:16], [15:8], [7:0] (the bit mapping is the spec's general knowledge, log 17). -/
def Obligations.ImageDecodesBigEndianWords : Prop :=
  ∀ image : List Byte,
    ((image.length = 0 ∨ image.length % 4 ≠ 0) → decodeImage image = .error .malformedEncoding) ∧
    (¬(image.length = 0 ∨ image.length % 4 ≠ 0) → ∃ ws : List Word,
      decodeImage image = .ok ws ∧ ws.length = image.length / 4 ∧
      ∀ (k : Nat) (w : Word), ws[k]? = some w →
        image[4 * k]? = some (w.extractLsb' 24 8) ∧ image[4 * k + 1]? = some (w.extractLsb' 16 8) ∧
        image[4 * k + 2]? = some (w.extractLsb' 8 8) ∧ image[4 * k + 3]? = some (w.extractLsb' 0 8))

/-- 20_memory.md R39, R41: the image of a non-empty program decodes to it, and an image that decodes is the image of its Words:
no header, footer or padding. -/
def Obligations.ImageRoundTrip : Prop :=
  (∀ ws : List Word, ws ≠ [] → decodeImage (encodeImage ws) = .ok ws) ∧
  (∀ (image : List Byte) (ws : List Word), decodeImage image = .ok ws → encodeImage ws = image)

/-! ### The bounded-stack controller -/

/-- 40_stack_controller.md R61, for either stack: a full stack raises StackOverflow and nothing changes; otherwise the Word is
stored at index `top`, `top` goes up by one, and nothing else of the state changes. -/
def Obligations.PushStoresAtTheTop : Prop :=
  ∀ (n : StackName) (v : Word) (s : State),
    ((s.stack n).top = (s.stack n).cap → push n v s = .raise .stackOverflow s) ∧
    ((s.stack n).top ≠ (s.stack n).cap →
      push n v s = .ok () (match n with
        | .operand => { s with os := { top := s.os.top + 1, slot := s.os.slot.set s.os.top v } }
        | .ret => { s with rs := { top := s.rs.top + 1, slot := s.rs.slot.set s.rs.top v } }))

/-- 40_stack_controller.md R62, for either stack: an empty stack raises StackUnderflow and nothing changes; otherwise the Word at
the new `top` index is returned, `top` goes down by one, and no slot and nothing else changes. -/
def Obligations.PopReturnsTheTop : Prop :=
  ∀ (n : StackName) (s : State), (s.stack n).wf = true →
    ((s.stack n).top = 0 → pop n s = .raise .stackUnderflow s) ∧
    ((s.stack n).top ≠ 0 → ∃ v : Word, (s.stack n).slot[(s.stack n).top - 1]? = some v ∧
      pop n s = .ok v (match n with
        | .operand => { s with os := { s.os with top := s.os.top - 1 } }
        | .ret => { s with rs := { s.rs with top := s.rs.top - 1 } }))

/-- 40_stack_controller.md R64, 00_scope.md R8: construction takes any capacity; with capacity 0 every push overflows and every
pop underflows; no push, pop, load, start, step or direct Execute changes a
capacity. -/
def Obligations.CapacityNeverChanges : Prop :=
  (∀ (c : Nat) (fill : Nat → Word), (BoundedStack.create c fill).cap = c) ∧
  (∀ (b : BoundedStack) (v : Word), b.cap = 0 → b.wf = true → b.push v = none ∧ b.pop = none) ∧
  (∀ (b b' : BoundedStack) (v : Word), b.push v = some b' ∨ b.pop = some (v, b') → b'.cap = b.cap) ∧
  (∀ (s t : State) (ws : List Word) (answer : Option ErrorKind),
    step s = .next t ∨ startRun s = .next t ∨ loadProgram ws s = .next (answer, t) →
      t.os.cap = s.os.cap ∧ t.rs.cap = s.rs.cap) ∧
  (∀ (s t : State) (i : Instr) (e : ErrorKind), execute i s = .ok () t ∨ execute i s = .raise e t →
    t.os.cap = s.os.cap ∧ t.rs.cap = s.rs.cap)

/-- 40_stack_controller.md R65: C pushes on a new stack succeed and the next overflows; C pops then return them in reverse order
and the next underflows. In general, pushes append to the content, and pops return its last Words in reverse and take them off. -/
def Obligations.StackLaw : Prop :=
  (∀ (c : Nat) (fill : Nat → Word) (vs : List Word), vs.length = c →
    ∃ full : BoundedStack, pushAll vs (BoundedStack.create c fill) = some full ∧ (∀ v : Word, full.push v = none) ∧
      ∃ empty : BoundedStack, popMany c full = some (vs.reverse, empty) ∧ empty.pop = none) ∧
  (∀ (b : BoundedStack) (vs : List Word), b.wf = true → b.top + vs.length ≤ b.cap →
    ∃ b' : BoundedStack, pushAll vs b = some b' ∧ b'.wf = true ∧ b'.cap = b.cap ∧ b'.content = b.content ++ vs) ∧
  (∀ (b : BoundedStack) (rest vs : List Word), b.wf = true → b.content = rest ++ vs →
    ∃ b' : BoundedStack, popMany vs.length b = some (vs.reverse, b') ∧ b'.wf = true ∧ b'.cap = b.cap ∧ b'.content = rest)

/-- 10_state.md R16: a push or pop of one stack never changes the other. -/
def Obligations.StacksDoNotAlias : Prop :=
  ∀ (s t : State) (v : Word),
    (push .operand v s = .ok () t → t.rs = s.rs) ∧ (pop .operand s = .ok v t → t.rs = s.rs) ∧
    (push .ret v s = .ok () t → t.os = s.os) ∧ (pop .ret s = .ok v t → t.os = s.os)

/-! ### Fetch, Jump, error entry, step -/

/-- 41_engine_cycle.md R67: OutOfBounds with nothing changed outside [0, `L`); otherwise the Word at `pc`, and `pc` goes up by exactly 1. -/
def Obligations.FetchReadsAndAdvances : Prop :=
  ∀ s : State,
    (s.pc.toInt < 0 ∨ (s.progLen : Int) ≤ s.pc.toInt → fetch s = .raise .outOfBounds s) ∧
    (0 ≤ s.pc.toInt → s.pc.toInt < s.progLen → ∃ w : Word,
      s.prog[s.pc.toInt.toNat]? = some w ∧ fetch s = .ok w { s with pc := s.pc + 1#32 })

/-- 41_engine_cycle.md R69: LoadParams(n) is n Fetches in order, a raise propagating at once; so it gives the n Words from `pc` on
when the program holds them, and else OutOfBounds at the program's end. -/
def Obligations.LoadParamsFetchesExactlyN : Prop :=
  (∀ s : State, loadParams 0 s = .ok [] s) ∧
  (∀ (n : Nat) (s : State), loadParams (n + 1) s =
    match fetch s with
    | .raise e t => .raise e t
    | .ok w t =>
      match loadParams n t with
      | .raise e u => .raise e u
      | .ok ws u => .ok (w :: ws) u) ∧
  (∀ (n : Nat) (s : State), Inv s →
    (s.pc.toInt + n ≤ s.progLen →
      loadParams n s = .ok (s.upcoming.take n) { s with pc := s.pc + BitVec.ofNat 32 n }) ∧
    ((s.progLen : Int) < s.pc.toInt + n →
      loadParams n s = .raise .outOfBounds { s with pc := BitVec.ofNat 32 s.progLen }))

/-- 41_engine_cycle.md R70: Jump succeeds iff 0 ≤ addr < `L` and then writes `pc` only; otherwise JumpOutOfBounds.
That a failed Jump leaves `pc` is the spec's decision D5 (log 12). -/
def Obligations.JumpSucceedsIffInBounds : Prop :=
  ∀ (addr : Word) (s : State),
    (0 ≤ addr.toInt ∧ addr.toInt < s.progLen → jump addr s = .ok () { s with pc := addr }) ∧
    (¬(0 ≤ addr.toInt ∧ addr.toInt < s.progLen) → jump addr s = .raise .jumpOutOfBounds s)

/-- 60_exceptions.md R98: when the fetch half or the Execute arm of a step raises E, the step ends with `err` = E and `status` =
Errored over the state the raise left, and nothing else written (the latches, unspecified between steps, may hold anything);
the run ends there and returns E. -/
def Obligations.ErrorEntryWritesErrAndStatusOnly : Prop :=
  ∀ (s s1 s2 : State) (e : ErrorKind), s.status = .running →
    (fetchInstr s = .raise e s2 ∨ (∃ i : Instr, i ≠ .halt ∧ fetchInstr s = .ok i s1 ∧ execute i s1 = .raise e s2)) →
    ∃ t : State, step s = .next t ∧
      t = { s2 with err := some e, status := .errored, op := t.op, imm := t.imm, draws := t.draws } ∧
      ∀ fuel : Nat, runFor (fuel + 1) s = .next t ∧ runAnswer t = some (some e)

/-- 41_engine_cycle.md R73: when the Words at `pc` decode to an instruction, the step of a Running engine is its execution with
`pc` past its Words, and then the latches are released (log 7). -/
def Obligations.StepRunsTheDecodedInstruction : Prop :=
  ∀ (s : State) (i : Instr) (rest : List Word), Inv s → s.status = .running →
    decode s.opc s.upcoming = .ok (i, rest) →
    step s = mapNext State.releaseLatches (exec i (s.fetched i))

/-- 41_engine_cycle.md R73, 30_encoding.md R58, 60_exceptions.md R97, R100: when the Words at `pc` do not decode, the step enters the
error with nothing executed: no opcode Word is OutOfBounds at A, an unknown opcode is UnknownOpcode at A + 1, a missing operand is
OutOfBounds at A + 1, whatever the stacks hold. -/
def Obligations.StepEntersTheErrorOfARejectedFetch : Prop :=
  ∀ s : State, Inv s → s.status = .running →
    (decode s.opc s.upcoming = .error .noOpcode → ∃ t : State, step s = .next t ∧
      t = { s with err := some .outOfBounds, status := .errored, op := t.op, imm := t.imm, draws := t.draws }) ∧
    (decode s.opc s.upcoming = .error .unknownOpcode → ∃ t : State, step s = .next t ∧
      t = { s with pc := s.pc + 1#32, err := some .unknownOpcode, status := .errored,
                   op := t.op, imm := t.imm, draws := t.draws }) ∧
    (decode s.opc s.upcoming = .error .noOperand → ∃ t : State, step s = .next t ∧
      t = { s with pc := s.pc + 1#32, err := some .outOfBounds, status := .errored,
                   op := t.op, imm := t.imm, draws := t.draws })

/-! ### What each instruction does -/

/-- 42_system.md R80: in a step HALT writes `status` and nothing else; a direct Execute of HALT writes nothing. -/
def Obligations.HaltEndsTheRun : Prop :=
  ∀ s : State, exec .halt s = .next { s with status := .halted } ∧ execute .halt s = .ok () s

/-- 42_system.md R81: NOP writes nothing. -/
def Obligations.NopHasNoEffect : Prop :=
  ∀ s : State, exec .nop s = .next s

/-- 43_stack_io.md R82: PRINT pops the top Word of `os` and appends it to `out`. That the port takes the whole Word is the spec's
decision D6 (log 13, DESIGN CHOICE). -/
def Obligations.PrintWritesThePoppedWord : Prop :=
  ∀ (s : State) (v : Word) (rest : List Word), s.os.wf = true → s.os.content = rest ++ [v] →
    exec .print s = .next { s with os := { s.os with top := s.os.top - 1 }, out := s.out ++ [v] } ∧
    ({ s.os with top := s.os.top - 1 } : BoundedStack).content = rest

/-- 43_stack_io.md R83: PUSH imm puts any Word on `os` when `os` is not full. -/
def Obligations.PushPushesTheImmediate : Prop :=
  ∀ (s : State) (imm : Word), s.os.top < s.os.cap →
    exec (.push imm) s = .next { s with os := { top := s.os.top + 1, slot := s.os.slot.set s.os.top imm } } ∧
    ({ top := s.os.top + 1, slot := s.os.slot.set s.os.top imm } : BoundedStack).content = s.os.content ++ [imm]

/-- 43_stack_io.md R84: POP drops the top Word of `os`; every slot keeps its Word. -/
def Obligations.PopDiscardsTheTop : Prop :=
  ∀ (s : State) (v : Word) (rest : List Word), s.os.wf = true → s.os.content = rest ++ [v] →
    exec .pop s = .next { s with os := { s.os with top := s.os.top - 1 } } ∧
    ({ s.os with top := s.os.top - 1 } : BoundedStack).content = rest

/-- 44_arith.md R86: ADD replaces the two top Words of `os` by wrap32 of their sum. -/
def Obligations.AddPushesTheWrappedSum : Prop :=
  ∀ (s : State) (a b : Word) (rest : List Word), s.os.wf = true → s.os.content = rest ++ [b, a] →
    exec .add s = .next { s with
      os := { top := s.os.top - 1, slot := s.os.slot.set (s.os.top - 2) (wrap32 (a.toInt + b.toInt)) } } ∧
    ({ top := s.os.top - 1, slot := s.os.slot.set (s.os.top - 2) (wrap32 (a.toInt + b.toInt)) } : BoundedStack).content
      = rest ++ [wrap32 (a.toInt + b.toInt)]

/-- 45_control.md R89: JMP pops the target from `os` and goes there when it is in [0, `L`). -/
def Obligations.JmpGoesToThePoppedTarget : Prop :=
  ∀ (s : State) (t : Word) (rest : List Word), s.os.wf = true → s.os.content = rest ++ [t] →
    0 ≤ t.toInt → t.toInt < s.progLen →
    exec .jmp s = .next { s with os := { s.os with top := s.os.top - 1 }, pc := t } ∧
    ({ s.os with top := s.os.top - 1 } : BoundedStack).content = rest

/-- 45_control.md R90: JZ pops v; for v ≠ 0 it only goes on, whatever imm is; for v = 0 it goes to imm when that is in [0, `L`). -/
def Obligations.JzBranchesOnZero : Prop :=
  ∀ (s : State) (v imm : Word) (rest : List Word), s.os.wf = true → s.os.content = rest ++ [v] →
    (v ≠ 0#32 → exec (.jz imm) s = .next { s with os := { s.os with top := s.os.top - 1 } }) ∧
    (v = 0#32 → 0 ≤ imm.toInt → imm.toInt < s.progLen →
      exec (.jz imm) s = .next { s with os := { s.os with top := s.os.top - 1 }, pc := imm })

/-- 45_control.md R91: JNZ pops v; for v = 0 it only goes on, whatever imm is; for v ≠ 0 it goes to imm when that is in [0, `L`). -/
def Obligations.JnzBranchesOnNonZero : Prop :=
  ∀ (s : State) (v imm : Word) (rest : List Word), s.os.wf = true → s.os.content = rest ++ [v] →
    (v = 0#32 → exec (.jnz imm) s = .next { s with os := { s.os with top := s.os.top - 1 } }) ∧
    (v ≠ 0#32 → 0 ≤ imm.toInt → imm.toInt < s.progLen →
      exec (.jnz imm) s = .next { s with os := { s.os with top := s.os.top - 1 }, pc := imm })

/-- 45_control.md R92: CALL pushes `pc` (in a step the address after its operand) on `rs` and goes to imm when that is in [0, `L`). -/
def Obligations.CallLinksAndJumps : Prop :=
  ∀ (s : State) (imm : Word), s.rs.top < s.rs.cap → 0 ≤ imm.toInt → imm.toInt < s.progLen →
    exec (.call imm) s = .next { s with
      rs := { top := s.rs.top + 1, slot := s.rs.slot.set s.rs.top s.pc }, pc := imm } ∧
    ({ top := s.rs.top + 1, slot := s.rs.slot.set s.rs.top s.pc } : BoundedStack).content = s.rs.content ++ [s.pc]

/-- 45_control.md R93: RET pops the target from `rs` and goes there when it is in [0, `L`). -/
def Obligations.RetReturnsToThePoppedAddress : Prop :=
  ∀ (s : State) (t : Word) (rest : List Word), s.rs.wf = true → s.rs.content = rest ++ [t] →
    0 ≤ t.toInt → t.toInt < s.progLen →
    exec .ret s = .next { s with rs := { s.rs with top := s.rs.top - 1 }, pc := t } ∧
    ({ s.rs with top := s.rs.top - 1 } : BoundedStack).content = rest

/-! ### Where each instruction raises -/

/-- 43_stack_io.md R82, R84, 44_arith.md R86, 45_control.md R89 to R91: with `os` empty, PRINT, POP, ADD, JMP, JZ and JNZ enter
StackUnderflow with nothing else changed. -/
def Obligations.EmptyOperandStackUnderflows : Prop :=
  ∀ (s : State) (i : Instr) (imm : Word), s.os.top = 0 →
    i = .print ∨ i = .pop ∨ i = .add ∨ i = .jmp ∨ i = .jz imm ∨ i = .jnz imm →
    exec i s = .next { s with err := some .stackUnderflow, status := .errored }

/-- 44_arith.md R86, 60_exceptions.md R99: ADD on one Word enters StackUnderflow with that Word popped, not restored. -/
def Obligations.AddLosesTheFirstPoppedWord : Prop :=
  ∀ s : State, s.os.wf = true → s.os.top = 1 →
    exec .add s = .next { s with os := { s.os with top := 0 }, err := some .stackUnderflow, status := .errored }

/-- 43_stack_io.md R83: PUSH on a full `os` enters StackOverflow with nothing else changed. -/
def Obligations.FullOperandStackOverflowsPush : Prop :=
  ∀ (s : State) (imm : Word), s.os.top = s.os.cap →
    exec (.push imm) s = .next { s with err := some .stackOverflow, status := .errored }

/-- 45_control.md R92, 60_exceptions.md R97: CALL on a full `rs` enters StackOverflow with nothing else changed. That it does so
whatever its target, the push coming before the bounds check, is the spec's decision D5 (log 12, DESIGN CHOICE). -/
def Obligations.FullReturnStackOverflowsCall : Prop :=
  ∀ (s : State) (imm : Word), s.rs.top = s.rs.cap →
    exec (.call imm) s = .next { s with err := some .stackOverflow, status := .errored }

/-- 45_control.md R93: RET with `rs` empty enters StackUnderflow with nothing else changed. -/
def Obligations.EmptyReturnStackUnderflowsRet : Prop :=
  ∀ s : State, s.rs.top = 0 →
    exec .ret s = .next { s with err := some .stackUnderflow, status := .errored }

/-- 45_control.md R88, 60_exceptions.md R99 (the spec's decision D5, log 12): a target outside [0, `L`) enters JumpOutOfBounds with
`pc` as it was and the pop, or CALL's push, standing. -/
def Obligations.FailedJumpKeepsTheStackEffect : Prop :=
  ∀ (s : State) (v target : Word) (rest : List Word), ¬(0 ≤ target.toInt ∧ target.toInt < s.progLen) →
    (s.os.wf = true → s.os.content = rest ++ [target] →
      exec .jmp s = .next { s with os := { s.os with top := s.os.top - 1 }, err := some .jumpOutOfBounds, status := .errored }) ∧
    (s.os.wf = true → s.os.content = rest ++ [v] →
      (v = 0#32 → exec (.jz target) s =
        .next { s with os := { s.os with top := s.os.top - 1 }, err := some .jumpOutOfBounds, status := .errored }) ∧
      (v ≠ 0#32 → exec (.jnz target) s =
        .next { s with os := { s.os with top := s.os.top - 1 }, err := some .jumpOutOfBounds, status := .errored })) ∧
    (s.rs.top < s.rs.cap → exec (.call target) s =
      .next { s with rs := { top := s.rs.top + 1, slot := s.rs.slot.set s.rs.top s.pc },
                     err := some .jumpOutOfBounds, status := .errored }) ∧
    (s.rs.wf = true → s.rs.content = rest ++ [target] →
      exec .ret s = .next { s with rs := { s.rs with top := s.rs.top - 1 }, err := some .jumpOutOfBounds, status := .errored })

/-- 44_arith.md R87: ADD's push never raises StackOverflow, a full `os` included. -/
def Obligations.AddNeverOverflows : Prop :=
  ∀ s s' : State, s.os.wf = true → execute .add s ≠ .raise .stackOverflow s'

/-- 44_arith.md R85: the sum is wrap32 of the exact sum, the same bits as the unsigned sum modulo 2^32; ADD with two Words on `os`
raises nothing and sets nothing; the zero test compares the whole Word with 0. -/
def Obligations.AdditionWraps : Prop :=
  (∀ a b : Word, aluAdd a b = wrap32 (a.toInt + b.toInt) ∧ aluAdd a b = BitVec.ofNat 32 (a.toNat + b.toNat)) ∧
  (∀ s : State, s.os.wf = true → 2 ≤ s.os.top →
    ∃ t : State, exec .add s = .next t ∧ t.status = s.status ∧ t.err = s.err) ∧
  (∀ v : Word, isZero v = true ↔ v.toInt = 0)

/-! ### Frames -/

/-- 42_system.md R80, R81, 10_state.md R28: NOP leaves every component as it was, HALT every one but `status`. -/
def Obligations.SystemFrame : Prop :=
  ∀ s t : State,
    (exec .nop s = .next t → t = s) ∧
    (exec .halt s = .next t → t.prog = s.prog ∧ (∀ a, t.prog.read a = s.prog.read a) ∧ t.loaded = s.loaded ∧ t.pc = s.pc ∧
      t.os = s.os ∧ t.rs = s.rs ∧ t.out = s.out ∧ t.err = s.err ∧ t.op = s.op ∧ t.imm = s.imm ∧ t.draws = s.draws ∧ t.cfg = s.cfg)

/-- 10_state.md R28, 43_stack_io.md, 44_arith.md: PRINT, PUSH, POP and ADD change `os`, PRINT also `out`, an error also `err` and
`status`, and nothing else; PUSH stores to slot `top` only, ADD to slot `top` − 2 only, PRINT and POP to none. -/
def Obligations.OperandStackFrame : Prop :=
  ∀ (s t : State) (i : Instr) (imm : Word),
    i = .print ∨ i = .push imm ∨ i = .pop ∨ i = .add → exec i s = .next t →
    t = { s with os := t.os, out := t.out, status := t.status, err := t.err } ∧
    (∀ a, t.prog.read a = s.prog.read a) ∧
    (i ≠ .print → t.out = s.out) ∧
    ((t.status = s.status ∧ t.err = s.err) ∨ (t.status = .errored ∧ ∃ e, t.err = some e)) ∧
    t.os.cap = s.os.cap ∧
    (i = .print ∨ i = .pop → t.os.slot = s.os.slot) ∧
    (∀ k, i = .push imm → k ≠ s.os.top → t.os.slot[k]? = s.os.slot[k]?) ∧
    (∀ k, i = .add → k ≠ s.os.top - 2 → t.os.slot[k]? = s.os.slot[k]?)

/-- 10_state.md R28, 45_control.md: JMP, JZ and JNZ change `os.top` and `pc`, an error also `err` and `status`, and nothing else:
no slot, not `rs`, not `out`. That an error leaves `pc`, a failed Jump's among them, is
the spec's decision D5 (log 12, DESIGN CHOICE). -/
def Obligations.BranchFrame : Prop :=
  ∀ (s t : State) (i : Instr) (imm : Word),
    i = .jmp ∨ i = .jz imm ∨ i = .jnz imm → exec i s = .next t →
    t = { s with os := t.os, pc := t.pc, status := t.status, err := t.err } ∧
    (∀ a, t.prog.read a = s.prog.read a) ∧
    t.os.slot = s.os.slot ∧
    ((t.status = s.status ∧ t.err = s.err) ∨ (t.status = .errored ∧ (∃ e, t.err = some e) ∧ t.pc = s.pc))

/-- 10_state.md R28, 45_control.md R88, R92, R93: CALL and RET change `rs` and `pc`, an error also `err` and `status`, and nothing
else: not `os`, not `out`; CALL stores to slot `top` of `rs` only, RET to none. That an error leaves `pc`, a failed Jump's among
them, is the spec's decision D5 (log 12, DESIGN CHOICE). -/
def Obligations.CallReturnFrame : Prop :=
  ∀ (s t : State) (i : Instr) (imm : Word),
    i = .call imm ∨ i = .ret → exec i s = .next t →
    t = { s with rs := t.rs, pc := t.pc, status := t.status, err := t.err } ∧
    (∀ a, t.prog.read a = s.prog.read a) ∧
    t.rs.cap = s.rs.cap ∧
    ((t.status = s.status ∧ t.err = s.err) ∨ (t.status = .errored ∧ (∃ e, t.err = some e) ∧ t.pc = s.pc)) ∧
    (i = .ret → t.rs.slot = s.rs.slot) ∧
    (∀ k, i = .call imm → k ≠ s.rs.top → t.rs.slot[k]? = s.rs.slot[k]?)

/-! ### The direct Execute -/

/-- 41_engine_cycle.md R71, R72 (the spec's decision D13, log 14): for distinct `OPC`, a direct Execute of an opcode with its
parameters is that instruction's arm, an unknown opcode raises UnknownOpcode with nothing changed, a wrong number of parameters is
refused, and no direct Execute changes `status` or `err`; a step does the same and then enters the error the arm raised. -/
def Obligations.DirectExecuteReportsToItsCaller : Prop :=
  (∀ (s : State) (i : Instr), s.opc.wf = true →
    directExecute (s.opc.code i.mnemonic) i.params s = .next (execute i s)) ∧
  (∀ (s : State) (op : Word) (params : List Word), arity s.opc op = .error .unknownOpcode →
    directExecute op params s = .next (.raise .unknownOpcode s)) ∧
  (∀ (s : State) (op : Word) (params : List Word) (n : Nat), arity s.opc op = .ok n → params.length ≠ n →
    directExecute op params s = .refused .arityMismatch) ∧
  (∀ (s t : State) (i : Instr) (e : ErrorKind), execute i s = .ok () t ∨ execute i s = .raise e t →
    t.status = s.status ∧ t.err = s.err) ∧
  (∀ (s t : State) (i : Instr) (e : ErrorKind), i ≠ .halt →
    (execute i s = .ok () t → exec i s = .next t) ∧
    (execute i s = .raise e t → exec i s = .next { t with err := some e, status := .errored }))

/-! ### Reset and invariants -/

/-- 10_state.md R35, 70_reset_and_hazards.md R109: what construction leaves, for every configuration and whatever the slots hold.
`status`, `err`, `loaded`, `L` and `out` are the spec's decisions D2, D7, D8. -/
def Obligations.ConstructionLeavesTheResetValues : Prop :=
  ∀ (c : Config) (fillO fillR : Nat → Word) (s : State), s = State.construct c fillO fillR →
    s.pc = 0#32 ∧ s.os.top = 0 ∧ s.rs.top = 0 ∧ s.os.content = [] ∧ s.rs.content = [] ∧ s.prog = [] ∧ s.progLen = 0 ∧
    s.loaded = false ∧ s.out = [] ∧ s.status = .idle ∧ s.err = none ∧ s.cfg = c

/-- The invariant holds of every constructed engine, and of `State.reset` (10_state.md R21, R27, R35). -/
def Obligations.ConstructionHasTheInvariant : Prop :=
  (∀ (c : Config) (fillO fillR : Nat → Word), c.wf = true → Inv (State.construct c fillO fillR)) ∧ Inv State.reset

/-- Every step keeps the invariant: 0 ≤ `pc` ≤ `L` (10_state.md R21), the stacks' bounds (R27), return addresses in [2, `L`]
(R30), the error latch (R24), the program bound (20_memory.md R38). -/
def Obligations.StepKeepsTheInvariant : Prop :=
  ∀ s t : State, Inv s → step s = .next t → Inv t

/-- A load, whatever it answers, and the start of a run keep the invariant (20_memory.md R38, R45, 41_engine_cycle.md R76). -/
def Obligations.HostRequestsKeepTheInvariant : Prop :=
  ∀ (s t : State) (ws : List Word) (answer : Option ErrorKind), Inv s →
    (loadProgram ws s = .next (answer, t) → Inv t) ∧ (startRun s = .next t → Inv t)

/-- Every state that the host and the engine's own steps can produce has the invariant (10_state.md R21, R27, R30). -/
def Obligations.ReachableStatesHaveTheInvariant : Prop :=
  ∀ s : State, Reachable s → Inv s

/-! ### Whole-machine rules -/

/-- 20_memory.md R37: no step and no start of a run changes program memory; only LoadProgram does, by a copy of its Words. -/
def Obligations.ProgramMemoryIsReadOnly : Prop :=
  ∀ (s t : State) (ws : List Word) (answer : Option ErrorKind),
    (step s = .next t → t.prog = s.prog ∧ t.progLen = s.progLen ∧ ∀ a, t.prog.read a = s.prog.read a) ∧
    (startRun s = .next t → t.prog = s.prog) ∧
    (loadProgram ws s = .next (answer, t) → t.prog = s.prog ∨ t.prog = ws)

/-- 00_scope.md R7, 10_state.md R25: no step changes a construction parameter or `loaded`. -/
def Obligations.ConfigurationNeverChanges : Prop :=
  ∀ s t : State, step s = .next t → t.cfg = s.cfg ∧ t.loaded = s.loaded

/-- 10_state.md R29, R31, 41_engine_cycle.md R79: two engines that differ only in idle slots and latches take steps that differ
only there, and stop alike. -/
def Obligations.StepDoesNotSeeHiddenState : Prop :=
  ∀ s t : State, s.visible = t.visible →
    mapNext State.visible (step s) = mapNext State.visible (step t)

/-- 10_state.md R29, 41_engine_cycle.md R79: the same of whole runs: outputs, `pc`, stack contents, status and error of a run of
any length do not depend on idle slots or latches. -/
def Obligations.RunDoesNotSeeHiddenState : Prop :=
  ∀ (fuel : Nat) (s t : State), s.visible = t.visible →
    mapNext State.visible (runFor fuel s) = mapNext State.visible (runFor fuel t)

/-- 10_state.md R33, 20_memory.md R42, R48: a step writes the port exactly when it executes a PRINT that pops a Word, that Word
last; otherwise `out` stays as it was. That the whole Word goes out is the spec's decision D6 (log 13, DESIGN CHOICE). -/
def Obligations.OnlyPrintWritesTheOutput : Prop :=
  ∀ s t : State, Inv s → step s = .next t →
    (∀ (rest : List Word) (v : Word), decode s.opc s.upcoming = .ok (.print, rest) → s.os.content.getLast? = some v →
      t.out = s.out ++ [v]) ∧
    ((∀ rest : List Word, decode s.opc s.upcoming ≠ .ok (.print, rest)) ∨ s.os.content = [] → t.out = s.out)

/-- 10_state.md R23, 41_engine_cycle.md R77, 60_exceptions.md R101 (the spec's decision D15, log 11): no step is taken in Idle, Halted
or Errored, and a terminal engine accepts neither a load nor another Run. -/
def Obligations.NoStepOutsideRunning : Prop :=
  ∀ (s : State) (ws : List Word),
    (s.status = .idle → step s = .fault .idle) ∧
    (s.status = .halted → step s = .fault .halted ∧ startRun s = .refused .runNotIdle ∧ loadProgram ws s = .refused .loadNotIdle) ∧
    (s.status = .errored → step s = .fault .errored ∧ startRun s = .refused .runNotIdle ∧ loadProgram ws s = .refused .loadNotIdle)

/-- 41_engine_cycle.md R73, 60_exceptions.md R98: a step of a Running engine always answers a next state, whatever the program. -/
def Obligations.RunningStepAlwaysCompletes : Prop :=
  ∀ s : State, s.status = .running → ∃ t : State, step s = .next t

/-- 10_state.md R23, R24, 70_reset_and_hazards.md R112: a step ends Halted exactly when it fetched HALT, ends Errored with the
latch set to a run error, or goes on Running with no error. -/
def Obligations.StatusAfterAStep : Prop :=
  ∀ s t : State, Inv s → step s = .next t →
    (t.status = .halted ↔ ∃ rest : List Word, decode s.opc s.upcoming = .ok (.halt, rest)) ∧
    ((t.status = .running ∧ t.err = none) ∨ (t.status = .halted ∧ t.err = none) ∨
      (t.status = .errored ∧ ∃ e, t.err = some e ∧ e.isRunError = true))

/-- 10_state.md R20: how each instruction at A leaves `pc` when it raises nothing. -/
def Obligations.PcAfterEachInstruction : Prop :=
  ∀ (s t : State) (i : Instr) (rest : List Word), Inv s → decode s.opc s.upcoming = .ok (i, rest) →
    step s = .next t → t.status ≠ .errored →
    match i with
    | .halt | .nop | .print | .pop | .add => t.pc = s.pc + 1#32
    | .push _ => t.pc = s.pc + 2#32
    | .jz imm => ∃ v, s.os.content.getLast? = some v ∧ t.pc = if v = 0#32 then imm else s.pc + 2#32
    | .jnz imm => ∃ v, s.os.content.getLast? = some v ∧ t.pc = if v = 0#32 then s.pc + 2#32 else imm
    | .call imm => t.pc = imm ∧ t.rs.content = s.rs.content ++ [s.pc + 2#32]
    | .jmp => s.os.content.getLast? = some t.pc
    | .ret => s.rs.content.getLast? = some t.pc

/-- 60_exceptions.md R100: the kind and the `pc` of an error of the instruction at A, of arity n: OutOfBounds at A = `L` when there
is no opcode Word, UnknownOpcode at A + 1, OutOfBounds at A + 1 = `L` when the operand is missing, an error of Execute at A + 1 + n.
That JumpOutOfBounds is among the last, a failed Jump leaving `pc`, is the spec's decision D5 (log 12, DESIGN CHOICE). -/
def Obligations.PcAfterEachError : Prop :=
  ∀ s t : State, Inv s → step s = .next t → t.status = .errored →
    match decode s.opc s.upcoming with
    | .error .noOpcode => t.err = some .outOfBounds ∧ t.pc = s.pc ∧ t.pc.toInt = s.progLen
    | .error .unknownOpcode => t.err = some .unknownOpcode ∧ t.pc = s.pc + 1#32
    | .error .noOperand => t.err = some .outOfBounds ∧ t.pc = s.pc + 1#32 ∧ t.pc.toInt = s.progLen
    | .error .malformedEncoding => False
    | .ok (i, _) => (t.err = some .stackOverflow ∨ t.err = some .stackUnderflow ∨ t.err = some .jumpOutOfBounds) ∧
        t.pc = s.pc + 1#32 + BitVec.ofNat 32 i.mnemonic.arity

/-- 10_state.md R30, 45_control.md R93: a RET fails its bounds check only on a return address equal to `L`. -/
def Obligations.RetFailsOnlyAtTheProgramEnd : Prop :=
  ∀ s t : State, Inv s → execute .ret s = .raise .jumpOutOfBounds t →
    ∃ v : Word, s.rs.content.getLast? = some v ∧ v.toInt = s.progLen

/-! ### Load and Run -/

/-- 20_memory.md R39, R45, R46, R47, 70_reset_and_hazards.md R111 (the spec's decisions D4, D8, D9,
log 15): an Idle engine with nothing loaded takes a copy of 1 to
`PROG_CAP` Words, element by element, and changes nothing else but `loaded`; no Words is EmptyProgram with nothing changed; a load
in any other case is refused. A malformed image answers MalformedEncoding with the engine unchanged, and an image that decodes is
loaded as its Words (D19; what an image is, log 17). -/
def Obligations.LoadProgramCopiesOnce : Prop :=
  ∀ (s : State) (ws : List Word) (image : List Byte),
    (s.status = .idle → s.loaded = false → programWf s.progCap ws = true →
      ∃ t : State, loadProgram ws s = .next (none, t) ∧ t = { s with prog := ws, loaded := true } ∧ t.progLen = ws.length ∧
        ∀ a : Nat, a < t.progLen → t.prog[a]? = ws[a]?) ∧
    (s.status = .idle → s.loaded = false → ws = [] → loadProgram ws s = .next (some .emptyProgram, s)) ∧
    (s.status ≠ .idle → loadProgram ws s = .refused .loadNotIdle) ∧
    (s.status = .idle → s.loaded = true → loadProgram ws s = .refused .reload) ∧
    (s.status = .idle → s.loaded = false → s.progCap < ws.length → loadProgram ws s = .refused .programTooLong) ∧
    (image.length = 0 ∨ image.length % 4 ≠ 0 → loadImage image s = .next (some .malformedEncoding, s)) ∧
    (decodeImage image = .ok ws → loadImage image s = loadProgram ws s)

/-- 41_engine_cycle.md R76, R77, 70_reset_and_hazards.md R110 (D8, D15, log 15): Run starts a loaded Idle engine, changing `status` only;
after construction and a load that is at address 0 with both stacks empty and no error; an engine with nothing loaded is
refused, and so is one that is Running, Halted or Errored. -/
def Obligations.RunStartsALoadedIdleEngine : Prop :=
  (∀ s : State, s.status = .idle → s.loaded = true → startRun s = .next { s with status := .running }) ∧
  (∀ s : State, s.status = .idle → s.loaded = false → startRun s = .refused .runNotLoaded) ∧
  (∀ s : State, s.status ≠ .idle → startRun s = .refused .runNotIdle) ∧
  (∀ (c : Config) (fillO fillR : Nat → Word) (ws : List Word), programWf c.progCap ws = true →
    ∃ t u : State, loadProgram ws (State.construct c fillO fillR) = .next (none, t) ∧ startRun t = .next u ∧
      u.prog = ws ∧ u.pc = 0#32 ∧ u.os.content = [] ∧ u.rs.content = [] ∧ u.out = [] ∧ u.err = none ∧ u.status = .running)

/-- 41_engine_cycle.md R76, R78, R79, 70_reset_and_hazards.md R112: the loop of Run answers a next state for every
fuel; any two fuels that reach the end of the run reach the same state; a state still Running goes on for any further fuel.
A Halted run answers success, an Errored one its error, and a run that has not ended answers nothing. -/
def Obligations.RunEndIsUnique : Prop :=
  (∀ (fuel : Nat) (s : State), ∃ t : State, runFor fuel s = .next t) ∧
  (∀ (j k : Nat) (s a b : State), runFor j s = .next a → runFor k s = .next b →
    a.status ≠ .running → b.status ≠ .running → a = b) ∧
  (∀ (j k : Nat) (s a : State), runFor j s = .next a → runFor (j + k) s = runFor k a) ∧
  (∀ s : State, (s.status = .halted → runAnswer s = some none) ∧ (s.status = .errored → runAnswer s = some s.err) ∧
    (s.status = .running ∨ s.status = .idle → runAnswer s = none))
end

