-- ==== Sys2Proof/Laws/Decode.lean ====
section
/-! SUPPORT. The opcode map, `assemble` and the encoder. -/

namespace Sys2Proof

theorem Mnemonic.mem_all (m : Mnemonic) : m ∈ Mnemonic.all := by cases m <;> decide

theorem OpcodeMap.words_eq_map_code (opc : OpcodeMap) : opc.words = Mnemonic.all.map opc.code := rfl

/-- Distinct Words means that the opcode map is injective. -/
theorem OpcodeMap.code_injective {opc : OpcodeMap} (h : opc.wf = true) {m n : Mnemonic}
    (hc : opc.code m = opc.code n) : m = n := by
  have hn : (Mnemonic.all.map opc.code).Nodup := of_decide_eq_true h
  exact List.inj_on_of_nodup_map hn m.mem_all n.mem_all hc

/-- An opcode found is the opcode looked for. -/
theorem code_of_opcodeOf {opc : OpcodeMap} {w : Word} {m : Mnemonic} (h : opcodeOf opc w = some m) :
    opc.code m = w := by
  simpa using List.find?_some h

/-- The decoder finds every mnemonic by its own opcode. -/
theorem opcodeOf_code {opc : OpcodeMap} (h : opc.wf = true) (m : Mnemonic) : opcodeOf opc (opc.code m) = some m := by
  cases hf : opcodeOf opc (opc.code m) with
  | none => simpa using List.find?_eq_none.1 hf m m.mem_all
  | some n => rw [OpcodeMap.code_injective h (code_of_opcodeOf hf)]

/-- A Word is no opcode exactly when it is not one of the eleven. -/
theorem opcodeOf_eq_none_iff {opc : OpcodeMap} {w : Word} : opcodeOf opc w = none ↔ w ∉ opc.words := by
  rw [opcodeOf, List.find?_eq_none, OpcodeMap.words_eq_map_code]
  simp

theorem formatW1_eq_some_iff {i j : Instr} {params : List Word} : formatW1 i params = some j ↔ params = [] ∧ i = j := by
  cases params <;> simp [formatW1]

theorem formatW2_eq_some_iff {mk : Word → Instr} {j : Instr} {params : List Word} :
    formatW2 mk params = some j ↔ ∃ imm, params = [imm] ∧ mk imm = j := by
  rcases params with _ | ⟨a, _ | ⟨b, l⟩⟩ <;> simp [formatW2]

theorem formatW1_eq_none_iff {i : Instr} {params : List Word} : formatW1 i params = none ↔ params.length ≠ 0 := by
  cases params <;> simp [formatW1]

theorem formatW2_eq_none_iff {mk : Word → Instr} {params : List Word} : formatW2 mk params = none ↔ params.length ≠ 1 := by
  rcases params with _ | ⟨a, _ | ⟨b, l⟩⟩ <;> simp [formatW2]

/-- What `assemble` accepts: exactly an instruction's own mnemonic and immediates. -/
theorem assemble_eq_some_iff {m : Mnemonic} {params : List Word} {i : Instr} :
    assemble m params = some i ↔ i.mnemonic = m ∧ i.params = params := by
  cases m <;> simp only [assemble, formatW1_eq_some_iff, formatW2_eq_some_iff] <;>
    cases i <;> simp [Instr.mnemonic, Instr.params, eq_comm]

/-- `assemble` refuses exactly a wrong number of immediates. -/
theorem assemble_eq_none_iff {m : Mnemonic} {params : List Word} : assemble m params = none ↔ params.length ≠ m.arity := by
  cases m <;> simp only [assemble, formatW1_eq_none_iff, formatW2_eq_none_iff, Mnemonic.arity]

@[simp] theorem Instr.length_params (i : Instr) : i.params.length = i.mnemonic.arity := by cases i <;> rfl

end Sys2Proof
end

