-- ==== Sys2Proof/Laws/Memory.lean ====
section
/-! SUPPORT. Program memory: what a read answers, and that every operation keeps its form. -/

namespace Sys2Proof.Machine

theorem inBounds_iff {len : Nat} {a : Word} : inBounds len a = true ↔ 0 ≤ a.toInt ∧ a.toInt < len := by
  simp [inBounds]

/-- A read answers the listed Word exactly at the addresses in [0, `L`). -/
theorem Memory.read_eq_some_iff {m : Memory} {a w : Word} :
    m.read a = some w ↔ 0 ≤ a.toInt ∧ m[a.toInt.toNat]? = some w := by
  unfold Memory.read
  constructor
  · intro h
    split at h
    · exact ⟨(inBounds_iff.1 ‹_›).1, h⟩
    · cases h
  · rintro ⟨h0, h⟩
    have hlt : a.toInt.toNat < m.length := (List.getElem?_eq_some_iff.1 h).1
    rw [if_pos (inBounds_iff.2 ⟨h0, by omega⟩), h]

theorem Memory.read_eq_none_iff {m : Memory} {a : Word} :
    m.read a = none ↔ ¬(0 ≤ a.toInt ∧ a.toInt < m.length) := by
  unfold Memory.read
  split
  · have h := inBounds_iff.1 ‹_›
    rw [List.getElem?_eq_none_iff]
    omega
  · rw [inBounds_iff] at *
    simp_all

theorem Memory.wf_iff {progCap : Nat} {m : Memory} : m.wf progCap = true ↔ m.length ≤ progCap := by
  simp [Memory.wf]

/-- The only operation that writes program memory keeps its form. -/
theorem loadProgram_keeps_memory_wf {s t : State} {ws : List Word} {answer : Option ErrorKind}
    (hs : s.prog.wf s.progCap = true) (h : loadProgram ws s = .next (answer, t)) : t.prog.wf t.progCap = true := by
  unfold loadProgram at h
  split at h
  · cases h
  · split at h
    · cases h
    · split at h
      · cases h
      · cases ws <;> cases h <;> simp_all

theorem reset_memory_wf : State.reset.prog.wf State.reset.progCap = true := rfl

end Sys2Proof.Machine
end

