-- ==== Sys2Proof/Laws/Stack.lean ====
section
/-! SUPPORT. The two operations of the bounded-stack controller on one stack, in terms of its count, slots and content. -/

namespace Sys2Proof.Machine.BoundedStack

variable {b b' : BoundedStack} {v : Word}

theorem wf_iff : b.wf = true ↔ b.top ≤ b.cap := by simp [wf]

/-- All that a push that succeeds does. -/
theorem push_eq_some_iff :
    b.push v = some b' ↔ b.top ≠ b.cap ∧ b' = { top := b.top + 1, slot := b.slot.set b.top v } := by
  unfold push
  split <;> simp_all [eq_comm]

/-- A push overflows exactly on a full stack. -/
theorem push_eq_none_iff : b.push v = none ↔ b.top = b.cap := by
  unfold push
  split <;> simp_all

/-- All that a pop that succeeds does. -/
theorem pop_eq_some_iff :
    b.pop = some (v, b') ↔ b.top ≠ 0 ∧ b.slot[b.top - 1]? = some v ∧ b' = { b with top := b.top - 1 } := by
  unfold pop
  split
  · simp_all
  · cases b.slot[b.top - 1]? <;> simp_all [eq_comm]

/-- A well-formed stack underflows exactly when it is empty. -/
theorem pop_eq_none_iff (hb : b.wf = true) : b.pop = none ↔ b.top = 0 := by
  rw [wf_iff, cap] at hb
  unfold pop
  split
  · simp_all
  · have hlt : b.top - 1 < b.slot.length := by omega
    simp_all

theorem pop_of_top_zero (h : b.top = 0) : b.pop = none := by simp [pop, h]

theorem cap_push (h : b.push v = some b') : b'.cap = b.cap := by
  obtain ⟨-, rfl⟩ := push_eq_some_iff.1 h
  simp [cap]

theorem cap_pop (h : b.pop = some (v, b')) : b'.cap = b.cap := by
  obtain ⟨-, -, rfl⟩ := pop_eq_some_iff.1 h
  rfl

theorem wf_push (hb : b.wf = true) (h : b.push v = some b') : b'.wf = true := by
  have hc := cap_push h
  obtain ⟨hn, rfl⟩ := push_eq_some_iff.1 h
  rw [wf_iff] at hb ⊢
  rw [hc]
  simp only
  omega

theorem wf_pop (hb : b.wf = true) (h : b.pop = some (v, b')) : b'.wf = true := by
  have hc := cap_pop h
  obtain ⟨-, -, rfl⟩ := pop_eq_some_iff.1 h
  rw [wf_iff] at hb ⊢
  rw [hc]
  simp only
  omega

theorem length_content (hb : b.wf = true) : b.content.length = b.top := by
  rw [wf_iff, cap] at hb
  simp [content, hb]

/-- The content after storing at `top` and counting it. -/
theorem content_store (h : b.top < b.cap) :
    (BoundedStack.mk (b.top + 1) (b.slot.set b.top v)).content = b.content ++ [v] := by
  have hlt : b.top < b.slot.length := h
  simp [content, List.take_add_one, List.take_set_of_le, hlt]

/-- Pushing appends to the content. -/
theorem content_push (hb : b.wf = true) (h : b.push v = some b') : b'.content = b.content ++ [v] := by
  obtain ⟨hn, rfl⟩ := push_eq_some_iff.1 h
  rw [wf_iff] at hb
  exact content_store (by omega)

/-- A pop takes the last Word of the content. -/
theorem content_pop (h : b.pop = some (v, b')) : b.content = b'.content ++ [v] := by
  obtain ⟨hn, hv, rfl⟩ := pop_eq_some_iff.1 h
  obtain ⟨k, hk⟩ : ∃ k, b.top = k + 1 := ⟨b.top - 1, by omega⟩
  simp_all [content, List.take_add_one]

/-- A stack whose content ends in `v` pops `v`. -/
theorem pop_of_content {rest : List Word} (hb : b.wf = true) (h : b.content = rest ++ [v]) :
    b.pop = some (v, { b with top := b.top - 1 }) ∧ ({ b with top := b.top - 1 } : BoundedStack).content = rest := by
  have hlen := length_content hb
  have hpos : b.top ≠ 0 := by rw [← hlen, h]; simp
  cases hp : b.pop with
  | none => exact absurd ((pop_eq_none_iff hb).1 hp) hpos
  | some r =>
    obtain ⟨w, b'⟩ := r
    have hc := content_pop hp
    obtain ⟨-, -, hb'⟩ := pop_eq_some_iff.1 hp
    rw [h] at hc
    obtain ⟨h1, h2⟩ := List.append_inj' hc rfl
    simp_all

/-- Construction gives an empty well-formed stack of the given capacity. -/
@[simp] theorem cap_create (c : Nat) (fill : Nat → Word) : (create c fill).cap = c := by simp [create, cap]

@[simp] theorem top_create (c : Nat) (fill : Nat → Word) : (create c fill).top = 0 := rfl

@[simp] theorem content_create (c : Nat) (fill : Nat → Word) : (create c fill).content = [] := rfl

theorem wf_create (c : Nat) (fill : Nat → Word) : (create c fill).wf = true := by simp [wf_iff]

end Sys2Proof.Machine.BoundedStack
end

