-- ==== Sys2Proof/Laws/State.lean ====
section
/-! SUPPORT. One lemma per field per update of the state, so that no proof unfolds a record update. -/

namespace Sys2Proof.Machine

variable (s : State)

/-! ### setPc -/

@[simp] theorem State.setPc_prog (v : Word) : (s.setPc v).prog = s.prog := rfl
@[simp] theorem State.setPc_loaded (v : Word) : (s.setPc v).loaded = s.loaded := rfl
@[simp] theorem State.setPc_pc (v : Word) : (s.setPc v).pc = v := rfl
@[simp] theorem State.setPc_os (v : Word) : (s.setPc v).os = s.os := rfl
@[simp] theorem State.setPc_rs (v : Word) : (s.setPc v).rs = s.rs := rfl
@[simp] theorem State.setPc_out (v : Word) : (s.setPc v).out = s.out := rfl
@[simp] theorem State.setPc_status (v : Word) : (s.setPc v).status = s.status := rfl
@[simp] theorem State.setPc_err (v : Word) : (s.setPc v).err = s.err := rfl
@[simp] theorem State.setPc_op (v : Word) : (s.setPc v).op = s.op := rfl
@[simp] theorem State.setPc_imm (v : Word) : (s.setPc v).imm = s.imm := rfl
@[simp] theorem State.setPc_draws (v : Word) : (s.setPc v).draws = s.draws := rfl
@[simp] theorem State.setPc_progCap (v : Word) : (s.setPc v).progCap = s.progCap := rfl
@[simp] theorem State.setPc_opc (v : Word) : (s.setPc v).opc = s.opc := rfl

/-! ### outWrite -/

@[simp] theorem State.outWrite_prog (v : Word) : (s.outWrite v).prog = s.prog := rfl
@[simp] theorem State.outWrite_loaded (v : Word) : (s.outWrite v).loaded = s.loaded := rfl
@[simp] theorem State.outWrite_pc (v : Word) : (s.outWrite v).pc = s.pc := rfl
@[simp] theorem State.outWrite_os (v : Word) : (s.outWrite v).os = s.os := rfl
@[simp] theorem State.outWrite_rs (v : Word) : (s.outWrite v).rs = s.rs := rfl
@[simp] theorem State.outWrite_out (v : Word) : (s.outWrite v).out = s.out ++ [v] := rfl
@[simp] theorem State.outWrite_status (v : Word) : (s.outWrite v).status = s.status := rfl
@[simp] theorem State.outWrite_err (v : Word) : (s.outWrite v).err = s.err := rfl
@[simp] theorem State.outWrite_op (v : Word) : (s.outWrite v).op = s.op := rfl
@[simp] theorem State.outWrite_imm (v : Word) : (s.outWrite v).imm = s.imm := rfl
@[simp] theorem State.outWrite_draws (v : Word) : (s.outWrite v).draws = s.draws := rfl
@[simp] theorem State.outWrite_progCap (v : Word) : (s.outWrite v).progCap = s.progCap := rfl
@[simp] theorem State.outWrite_opc (v : Word) : (s.outWrite v).opc = s.opc := rfl

/-! ### latchOp -/

@[simp] theorem State.latchOp_prog (w : Word) : (s.latchOp w).prog = s.prog := rfl
@[simp] theorem State.latchOp_loaded (w : Word) : (s.latchOp w).loaded = s.loaded := rfl
@[simp] theorem State.latchOp_pc (w : Word) : (s.latchOp w).pc = s.pc := rfl
@[simp] theorem State.latchOp_os (w : Word) : (s.latchOp w).os = s.os := rfl
@[simp] theorem State.latchOp_rs (w : Word) : (s.latchOp w).rs = s.rs := rfl
@[simp] theorem State.latchOp_out (w : Word) : (s.latchOp w).out = s.out := rfl
@[simp] theorem State.latchOp_status (w : Word) : (s.latchOp w).status = s.status := rfl
@[simp] theorem State.latchOp_err (w : Word) : (s.latchOp w).err = s.err := rfl
@[simp] theorem State.latchOp_op (w : Word) : (s.latchOp w).op = w := rfl
@[simp] theorem State.latchOp_imm (w : Word) : (s.latchOp w).imm = s.imm := rfl
@[simp] theorem State.latchOp_draws (w : Word) : (s.latchOp w).draws = s.draws := rfl
@[simp] theorem State.latchOp_progCap (w : Word) : (s.latchOp w).progCap = s.progCap := rfl
@[simp] theorem State.latchOp_opc (w : Word) : (s.latchOp w).opc = s.opc := rfl

/-! ### releaseLatches -/

@[simp] theorem State.releaseLatches_prog : s.releaseLatches.prog = s.prog := rfl
@[simp] theorem State.releaseLatches_loaded : s.releaseLatches.loaded = s.loaded := rfl
@[simp] theorem State.releaseLatches_pc : s.releaseLatches.pc = s.pc := rfl
@[simp] theorem State.releaseLatches_os : s.releaseLatches.os = s.os := rfl
@[simp] theorem State.releaseLatches_rs : s.releaseLatches.rs = s.rs := rfl
@[simp] theorem State.releaseLatches_out : s.releaseLatches.out = s.out := rfl
@[simp] theorem State.releaseLatches_status : s.releaseLatches.status = s.status := rfl
@[simp] theorem State.releaseLatches_err : s.releaseLatches.err = s.err := rfl
@[simp] theorem State.releaseLatches_op : s.releaseLatches.op = Config.freeLatch s.draws := rfl
@[simp] theorem State.releaseLatches_imm : s.releaseLatches.imm = Config.freeLatch (s.draws + 1) := rfl
@[simp] theorem State.releaseLatches_draws : s.releaseLatches.draws = s.draws + 2 := rfl
@[simp] theorem State.releaseLatches_progCap : s.releaseLatches.progCap = s.progCap := rfl
@[simp] theorem State.releaseLatches_opc : s.releaseLatches.opc = s.opc := rfl

/-! ### halt -/

@[simp] theorem State.halt_prog : s.halt.prog = s.prog := rfl
@[simp] theorem State.halt_loaded : s.halt.loaded = s.loaded := rfl
@[simp] theorem State.halt_pc : s.halt.pc = s.pc := rfl
@[simp] theorem State.halt_os : s.halt.os = s.os := rfl
@[simp] theorem State.halt_rs : s.halt.rs = s.rs := rfl
@[simp] theorem State.halt_out : s.halt.out = s.out := rfl
@[simp] theorem State.halt_status : s.halt.status = .halted := rfl
@[simp] theorem State.halt_err : s.halt.err = s.err := rfl
@[simp] theorem State.halt_op : s.halt.op = s.op := rfl
@[simp] theorem State.halt_imm : s.halt.imm = s.imm := rfl
@[simp] theorem State.halt_draws : s.halt.draws = s.draws := rfl
@[simp] theorem State.halt_progCap : s.halt.progCap = s.progCap := rfl
@[simp] theorem State.halt_opc : s.halt.opc = s.opc := rfl

/-! ### enterError -/

@[simp] theorem State.enterError_prog (e : ErrorKind) : (s.enterError e).prog = s.prog := rfl
@[simp] theorem State.enterError_loaded (e : ErrorKind) : (s.enterError e).loaded = s.loaded := rfl
@[simp] theorem State.enterError_pc (e : ErrorKind) : (s.enterError e).pc = s.pc := rfl
@[simp] theorem State.enterError_os (e : ErrorKind) : (s.enterError e).os = s.os := rfl
@[simp] theorem State.enterError_rs (e : ErrorKind) : (s.enterError e).rs = s.rs := rfl
@[simp] theorem State.enterError_out (e : ErrorKind) : (s.enterError e).out = s.out := rfl
@[simp] theorem State.enterError_status (e : ErrorKind) : (s.enterError e).status = .errored := rfl
@[simp] theorem State.enterError_err (e : ErrorKind) : (s.enterError e).err = some e := rfl
@[simp] theorem State.enterError_op (e : ErrorKind) : (s.enterError e).op = s.op := rfl
@[simp] theorem State.enterError_imm (e : ErrorKind) : (s.enterError e).imm = s.imm := rfl
@[simp] theorem State.enterError_draws (e : ErrorKind) : (s.enterError e).draws = s.draws := rfl
@[simp] theorem State.enterError_progCap (e : ErrorKind) : (s.enterError e).progCap = s.progCap := rfl
@[simp] theorem State.enterError_opc (e : ErrorKind) : (s.enterError e).opc = s.opc := rfl

/-! ### setStack -/

@[simp] theorem State.setStack_prog (n : StackName) (b : BoundedStack) : (s.setStack n b).prog = s.prog := by cases n <;> rfl
@[simp] theorem State.setStack_loaded (n : StackName) (b : BoundedStack) : (s.setStack n b).loaded = s.loaded := by cases n <;> rfl
@[simp] theorem State.setStack_pc (n : StackName) (b : BoundedStack) : (s.setStack n b).pc = s.pc := by cases n <;> rfl
@[simp] theorem State.setStack_out (n : StackName) (b : BoundedStack) : (s.setStack n b).out = s.out := by cases n <;> rfl
@[simp] theorem State.setStack_status (n : StackName) (b : BoundedStack) : (s.setStack n b).status = s.status := by cases n <;> rfl
@[simp] theorem State.setStack_err (n : StackName) (b : BoundedStack) : (s.setStack n b).err = s.err := by cases n <;> rfl
@[simp] theorem State.setStack_op (n : StackName) (b : BoundedStack) : (s.setStack n b).op = s.op := by cases n <;> rfl
@[simp] theorem State.setStack_imm (n : StackName) (b : BoundedStack) : (s.setStack n b).imm = s.imm := by cases n <;> rfl
@[simp] theorem State.setStack_draws (n : StackName) (b : BoundedStack) : (s.setStack n b).draws = s.draws := by cases n <;> rfl
@[simp] theorem State.setStack_progCap (n : StackName) (b : BoundedStack) : (s.setStack n b).progCap = s.progCap := by cases n <;> rfl
@[simp] theorem State.setStack_opc (n : StackName) (b : BoundedStack) : (s.setStack n b).opc = s.opc := by cases n <;> rfl
@[simp] theorem State.setStack_operand_os (b : BoundedStack) : (s.setStack .operand b).os = b := rfl
@[simp] theorem State.setStack_operand_rs (b : BoundedStack) : (s.setStack .operand b).rs = s.rs := rfl
@[simp] theorem State.stack_operand : s.stack .operand = s.os := rfl
@[simp] theorem State.setStack_ret_rs (b : BoundedStack) : (s.setStack .ret b).rs = b := rfl
@[simp] theorem State.setStack_ret_os (b : BoundedStack) : (s.setStack .ret b).os = s.os := rfl
@[simp] theorem State.stack_ret : s.stack .ret = s.rs := rfl
@[simp] theorem State.stack_setStack (n : StackName) (b : BoundedStack) : (s.setStack n b).stack n = b := by cases n <;> rfl

/-! ### latchImm -/

@[simp] theorem State.latchImm_prog (ps : List Word) : (s.latchImm ps).prog = s.prog := by cases ps <;> rfl
@[simp] theorem State.latchImm_loaded (ps : List Word) : (s.latchImm ps).loaded = s.loaded := by cases ps <;> rfl
@[simp] theorem State.latchImm_pc (ps : List Word) : (s.latchImm ps).pc = s.pc := by cases ps <;> rfl
@[simp] theorem State.latchImm_os (ps : List Word) : (s.latchImm ps).os = s.os := by cases ps <;> rfl
@[simp] theorem State.latchImm_rs (ps : List Word) : (s.latchImm ps).rs = s.rs := by cases ps <;> rfl
@[simp] theorem State.latchImm_out (ps : List Word) : (s.latchImm ps).out = s.out := by cases ps <;> rfl
@[simp] theorem State.latchImm_status (ps : List Word) : (s.latchImm ps).status = s.status := by cases ps <;> rfl
@[simp] theorem State.latchImm_err (ps : List Word) : (s.latchImm ps).err = s.err := by cases ps <;> rfl
@[simp] theorem State.latchImm_op (ps : List Word) : (s.latchImm ps).op = s.op := by cases ps <;> rfl
@[simp] theorem State.latchImm_draws (ps : List Word) : (s.latchImm ps).draws = s.draws := by cases ps <;> rfl
@[simp] theorem State.latchImm_progCap (ps : List Word) : (s.latchImm ps).progCap = s.progCap := by cases ps <;> rfl
@[simp] theorem State.latchImm_opc (ps : List Word) : (s.latchImm ps).opc = s.opc := by cases ps <;> rfl
@[simp] theorem State.latchImm_nil : s.latchImm [] = s := rfl
@[simp] theorem State.latchImm_cons_imm (w : Word) (ps : List Word) : (s.latchImm (w :: ps)).imm = w := rfl

/-! ### Computed views -/

@[simp] theorem State.setPc_progLen (v : Word) : (s.setPc v).progLen = s.progLen := rfl
@[simp] theorem State.outWrite_progLen (v : Word) : (s.outWrite v).progLen = s.progLen := rfl
@[simp] theorem State.enterError_progLen (e : ErrorKind) : (s.enterError e).progLen = s.progLen := rfl
@[simp] theorem State.setStack_progLen (n : StackName) (b : BoundedStack) : (s.setStack n b).progLen = s.progLen := by
  cases n <;> rfl

/-- What the latches held before they are released leaves no trace. -/
@[simp] theorem State.releaseLatches_latchOp (w : Word) : (s.latchOp w).releaseLatches = s.releaseLatches := rfl

@[simp] theorem State.releaseLatches_latchImm (ps : List Word) : (s.latchImm ps).releaseLatches = s.releaseLatches := by
  cases ps <;> rfl

end Sys2Proof.Machine
end

