-- ==== Sys2Proof/Laws/Ops.lean ====
section
/-! SUPPORT. All that each shared operation can do, once; proofs cite these and unfold no operation. -/

namespace Sys2Proof.Machine

/-! ### Results -/

@[simp] theorem Result.bind_ok {α β : Type} (a : α) (s : State) (f : α → State → Result β) :
    (Result.ok a s).bind f = f a s := rfl

@[simp] theorem Result.bind_raise {α β : Type} (e : ErrorKind) (s : State) (f : α → State → Result β) :
    (Result.raise e s : Result α).bind f = .raise e s := rfl

/-- A sequence succeeds only by both of its parts. -/
theorem Result.bind_eq_ok_iff {α β : Type} {r : Result α} {f : α → State → Result β} {b : β} {t : State} :
    r.bind f = .ok b t ↔ ∃ a s, r = .ok a s ∧ f a s = .ok b t := by
  cases r <;> simp

/-- A sequence raises by its first part, or by its second. -/
theorem Result.bind_eq_raise_iff {α β : Type} {r : Result α} {f : α → State → Result β} {e : ErrorKind} {t : State} :
    r.bind f = .raise e t ↔ r = .raise e t ∨ ∃ a s, r = .ok a s ∧ f a s = .raise e t := by
  cases r <;> simp

@[simp] theorem settle_ok (u : Unit) (s : State) : settle (.ok u s) = .next s := rfl

@[simp] theorem settle_raise (e : ErrorKind) (s : State) : settle (.raise e s) = .next (s.enterError e) := rfl

/-- A settled result is a next state: the one the operation left, or that one with error entry. -/
theorem settle_eq_next_iff {r : Result Unit} {t : State} :
    settle r = .next t ↔ r = .ok () t ∨ ∃ e s, r = .raise e s ∧ t = s.enterError e := by
  cases r with
  | ok u s => simp
  | raise e s => simp [@eq_comm _ t]

@[simp] theorem mapNext_next (f : State → State) (s : State) : mapNext f (.next s) = .next (f s) := rfl

theorem mapNext_eq_next_iff {f : State → State} {o : Host.Outcome State Fault Refusal} {t : State} :
    mapNext f o = .next t ↔ ∃ s, o = .next s ∧ t = f s := by
  cases o <;> simp [mapNext, eq_comm]

/-! ### The stack controller in the engine -/

theorem push_eq_ok_iff {n : StackName} {v : Word} {s t : State} :
    push n v s = .ok () t ↔ ∃ b, (s.stack n).push v = some b ∧ t = s.setStack n b := by
  unfold push
  cases (s.stack n).push v <;> simp [eq_comm]

theorem push_eq_raise_iff {n : StackName} {v : Word} {s t : State} {e : ErrorKind} :
    push n v s = .raise e t ↔ (s.stack n).push v = none ∧ e = .stackOverflow ∧ t = s := by
  unfold push
  cases (s.stack n).push v <;> simp [eq_comm]

theorem pop_eq_ok_iff {n : StackName} {v : Word} {s t : State} :
    pop n s = .ok v t ↔ ∃ b, (s.stack n).pop = some (v, b) ∧ t = s.setStack n b := by
  unfold pop
  cases h : (s.stack n).pop with
  | none => simp
  | some r =>
    simp only [Result.ok.injEq, Option.some.injEq]
    constructor
    · rintro ⟨rfl, rfl⟩
      exact ⟨r.2, rfl, rfl⟩
    · rintro ⟨b, rfl, rfl⟩
      exact ⟨rfl, rfl⟩

theorem pop_eq_raise_iff {n : StackName} {s t : State} {e : ErrorKind} :
    pop n s = .raise e t ↔ (s.stack n).pop = none ∧ e = .stackUnderflow ∧ t = s := by
  unfold pop
  cases (s.stack n).pop <;> simp [eq_comm]

/-! ### Jump and Fetch -/

theorem jump_eq_ok_iff {addr : Word} {s t : State} :
    jump addr s = .ok () t ↔ (0 ≤ addr.toInt ∧ addr.toInt < s.progLen) ∧ t = s.setPc addr := by
  rw [← inBounds_iff, jump]
  cases inBounds s.progLen addr <;> simp [@eq_comm _ t]

theorem jump_eq_raise_iff {addr : Word} {s t : State} {e : ErrorKind} :
    jump addr s = .raise e t ↔ ¬(0 ≤ addr.toInt ∧ addr.toInt < s.progLen) ∧ e = .jumpOutOfBounds ∧ t = s := by
  rw [← inBounds_iff, jump]
  cases inBounds s.progLen addr <;> simp [@eq_comm _ t, @eq_comm _ e]

theorem fetch_eq_ok_iff {w : Word} {s t : State} :
    fetch s = .ok w t ↔ (0 ≤ s.pc.toInt ∧ s.prog[s.pc.toInt.toNat]? = some w) ∧ t = s.setPc (s.pc + 1#32) := by
  rw [← Memory.read_eq_some_iff, fetch]
  cases s.prog.read s.pc <;> simp [@eq_comm _ t]

theorem fetch_eq_raise_iff {s t : State} {e : ErrorKind} :
    fetch s = .raise e t ↔ ¬(0 ≤ s.pc.toInt ∧ s.pc.toInt < s.progLen) ∧ e = .outOfBounds ∧ t = s := by
  rw [State.progLen, ← Memory.read_eq_none_iff, fetch]
  cases s.prog.read s.pc <;> simp [@eq_comm _ t, @eq_comm _ e]

end Sys2Proof.Machine
end

