-- ==== Sys2Proof/Laws/Execute.lean ====
section
/-! SUPPORT. What every Execute arm has in common: the components it can write, and how a step ends it. -/

namespace Sys2Proof.Machine

/-- The state a result holds, whichever way it ended. -/
def Result.state {α : Type} : Result α → State
  | .ok _ s => s
  | .raise _ s => s

/-- `t` is `s` but for `os`, `rs`, `pc` and `out`. -/
def WritesAtMostData (s t : State) : Prop :=
  ∃ (b c : BoundedStack) (p : Word) (o : List Word), t = { s with os := b, rs := c, pc := p, out := o }

namespace WritesAtMostData

theorem refl (s : State) : WritesAtMostData s s := ⟨s.os, s.rs, s.pc, s.out, rfl⟩

theorem trans {s t u : State} (h1 : WritesAtMostData s t) (h2 : WritesAtMostData t u) : WritesAtMostData s u := by
  obtain ⟨b, c, p, o, rfl⟩ := h1
  obtain ⟨b', c', p', o', rfl⟩ := h2
  exact ⟨b', c', p', o', rfl⟩

theorem of_setStack (n : StackName) (s : State) (b : BoundedStack) : WritesAtMostData s (s.setStack n b) := by
  cases n
  · exact ⟨b, s.rs, s.pc, s.out, rfl⟩
  · exact ⟨s.os, b, s.pc, s.out, rfl⟩

theorem of_pop (n : StackName) (s : State) : WritesAtMostData s (pop n s).state := by
  unfold pop
  split
  · exact of_setStack ..
  · exact refl s

theorem of_push (n : StackName) (v : Word) (s : State) : WritesAtMostData s (push n v s).state := by
  unfold push
  split
  · exact of_setStack ..
  · exact refl s

theorem of_jump (a : Word) (s : State) : WritesAtMostData s (jump a s).state := by
  unfold jump
  split
  · exact ⟨s.os, s.rs, a, s.out, rfl⟩
  · exact refl s

theorem of_outWrite (v : Word) (s : State) : WritesAtMostData s (s.outWrite v) := ⟨s.os, s.rs, s.pc, _, rfl⟩

theorem of_bind {α β : Type} {s : State} {r : Result α} {f : α → State → Result β} (hr : WritesAtMostData s r.state)
    (hf : ∀ a t, WritesAtMostData t (f a t).state) : WritesAtMostData s (r.bind f).state := by
  cases r with
  | ok a t => exact hr.trans (hf a t)
  | raise e t => exact hr

end WritesAtMostData

/-- An Execute arm writes `os`, `rs`, `pc` and `out` at most, whichever way it ends. -/
theorem execute_writes_at_most_data (i : Instr) (s : State) : WritesAtMostData s (execute i s).state := by
  cases i with
  | halt | nop => exact .refl s
  | print => exact .of_bind (.of_pop ..) fun v t => .of_outWrite v t
  | push imm => exact .of_push ..
  | pop => exact .of_bind (.of_pop ..) fun _ t => .refl t
  | add => exact .of_bind (.of_pop ..) fun _ _ => .of_bind (.of_pop ..) fun _ _ => .of_push ..
  | jmp => exact .of_bind (.of_pop ..) fun _ _ => .of_jump ..
  | jz imm =>
    refine .of_bind (.of_pop ..) fun v t => ?_
    cases isZero v
    · exact .refl t
    · exact .of_jump ..
  | jnz imm =>
    refine .of_bind (.of_pop ..) fun v t => ?_
    cases isZero v
    · exact .of_jump ..
    · exact .refl t
  | call imm => exact .of_bind (.of_push ..) fun _ _ => .of_jump ..
  | ret => exact .of_bind (.of_pop ..) fun _ _ => .of_jump ..

/-- In a step every arm but HALT's is its Execute arm, settled. -/
theorem exec_eq_settle {i : Instr} (h : i ≠ .halt) (s : State) : exec i s = settle (execute i s) := by
  cases i <;> first | exact absurd rfl h | rfl

/-- Every arm of `exec` ends in a next state. -/
theorem exec_completes (i : Instr) (s : State) : ∃ t, exec i s = .next t := by
  by_cases h : i = .halt
  · subst h
    exact ⟨s.halt, rfl⟩
  · rw [exec_eq_settle h]
    cases execute i s with
    | ok u t => exact ⟨t, rfl⟩
    | raise e t => exact ⟨t.enterError e, rfl⟩

/-! ### Each Execute arm: every way it can end

One lemma per arm. The pops and pushes are those of `BoundedStack`, whose own lemmas say what they do. -/

/-- A pop in the engine: with the Word and the shorter stack, or StackUnderflow and nothing written. -/
theorem pop_cases (n : StackName) (s : State) :
    (∃ v b, (s.stack n).pop = some (v, b) ∧ pop n s = .ok v (s.setStack n b)) ∨
    ((s.stack n).pop = none ∧ pop n s = .raise .stackUnderflow s) := by
  unfold pop
  cases h : (s.stack n).pop with
  | some r => exact .inl ⟨r.1, r.2, rfl, rfl⟩
  | none => exact .inr ⟨rfl, rfl⟩

/-- A push in the engine: with the taller stack, or StackOverflow and nothing written. -/
theorem push_cases (n : StackName) (v : Word) (s : State) :
    (∃ b, (s.stack n).push v = some b ∧ push n v s = .ok () (s.setStack n b)) ∨
    ((s.stack n).push v = none ∧ push n v s = .raise .stackOverflow s) := by
  unfold push
  cases h : (s.stack n).push v with
  | some b => exact .inl ⟨b, rfl, rfl⟩
  | none => exact .inr ⟨rfl, rfl⟩

/-- A Jump: `pc` written, or JumpOutOfBounds and nothing written. -/
theorem jump_cases (a : Word) (s : State) :
    ((0 ≤ a.toInt ∧ a.toInt < s.progLen) ∧ jump a s = .ok () { s with pc := a }) ∨
    (¬(0 ≤ a.toInt ∧ a.toInt < s.progLen) ∧ jump a s = .raise .jumpOutOfBounds s) := by
  by_cases h : 0 ≤ a.toInt ∧ a.toInt < s.progLen
  · exact .inl ⟨h, jump_eq_ok_iff.2 ⟨h, rfl⟩⟩
  · exact .inr ⟨h, jump_eq_raise_iff.2 ⟨h, rfl, rfl⟩⟩

theorem executePrint_cases (s : State) :
    (∃ v b, s.os.pop = some (v, b) ∧ execute .print s = .ok () { s with os := b, out := s.out ++ [v] }) ∨
    (s.os.pop = none ∧ execute .print s = .raise .stackUnderflow s) := by
  simp only [execute, executePrint, popOperand]
  rcases pop_cases .operand s with ⟨v, b, hp, h⟩ | ⟨hp, h⟩
  · exact .inl ⟨v, b, hp, by rw [h]; rfl⟩
  · exact .inr ⟨hp, by rw [h]; rfl⟩

theorem executePush_cases (imm : Word) (s : State) :
    (∃ b, s.os.push imm = some b ∧ execute (.push imm) s = .ok () { s with os := b }) ∨
    (s.os.push imm = none ∧ execute (.push imm) s = .raise .stackOverflow s) :=
  push_cases .operand imm s

theorem executePop_cases (s : State) :
    (∃ v b, s.os.pop = some (v, b) ∧ execute .pop s = .ok () { s with os := b }) ∨
    (s.os.pop = none ∧ execute .pop s = .raise .stackUnderflow s) := by
  simp only [execute, executePop, popOperand]
  rcases pop_cases .operand s with ⟨v, b, hp, h⟩ | ⟨hp, h⟩
  · exact .inl ⟨v, b, hp, by rw [h]; rfl⟩
  · exact .inr ⟨hp, by rw [h]; rfl⟩

/-- The last way is there only for a stack that is not well-formed. -/
theorem executeAdd_cases (s : State) :
    (∃ a b b1 b2 b3, s.os.pop = some (a, b1) ∧ b1.pop = some (b, b2) ∧ b2.push (aluAdd a b) = some b3 ∧
      execute .add s = .ok () { s with os := b3 }) ∨
    (s.os.pop = none ∧ execute .add s = .raise .stackUnderflow s) ∨
    (∃ a b1, s.os.pop = some (a, b1) ∧ b1.pop = none ∧ execute .add s = .raise .stackUnderflow { s with os := b1 }) ∨
    (∃ a b b1 b2, s.os.pop = some (a, b1) ∧ b1.pop = some (b, b2) ∧ b2.push (aluAdd a b) = none ∧
      execute .add s = .raise .stackOverflow { s with os := b2 }) := by
  simp only [execute, executeAdd, popOperand, pushOperand]
  rcases pop_cases .operand s with ⟨a, b1, h1, e1⟩ | ⟨h1, e1⟩
  · rw [e1]
    rcases pop_cases .operand (s.setStack .operand b1) with ⟨b, b2, h2, e2⟩ | ⟨h2, e2⟩
    · rcases push_cases .operand (aluAdd a b) ((s.setStack .operand b1).setStack .operand b2) with ⟨b3, h3, e3⟩ | ⟨h3, e3⟩
      · exact .inl ⟨a, b, b1, b2, b3, h1, h2, h3, by rw [Result.bind_ok, e2, Result.bind_ok, e3]; rfl⟩
      · exact .inr (.inr (.inr ⟨a, b, b1, b2, h1, h2, h3, by rw [Result.bind_ok, e2, Result.bind_ok, e3]; rfl⟩))
    · exact .inr (.inr (.inl ⟨a, b1, h1, h2, by rw [Result.bind_ok, e2]; rfl⟩))
  · exact .inr (.inl ⟨h1, by rw [e1]; rfl⟩)

theorem executeJmp_cases (s : State) :
    (∃ t b, s.os.pop = some (t, b) ∧ (0 ≤ t.toInt ∧ t.toInt < s.progLen) ∧
      execute .jmp s = .ok () { s with os := b, pc := t }) ∨
    (s.os.pop = none ∧ execute .jmp s = .raise .stackUnderflow s) ∨
    (∃ t b, s.os.pop = some (t, b) ∧ ¬(0 ≤ t.toInt ∧ t.toInt < s.progLen) ∧
      execute .jmp s = .raise .jumpOutOfBounds { s with os := b }) := by
  simp only [execute, executeJmp, popOperand]
  rcases pop_cases .operand s with ⟨t, b, hp, h⟩ | ⟨hp, h⟩
  · rcases jump_cases t (s.setStack .operand b) with ⟨hj, e⟩ | ⟨hj, e⟩
    · exact .inl ⟨t, b, hp, hj, by rw [h, Result.bind_ok, e]; rfl⟩
    · exact .inr (.inr ⟨t, b, hp, hj, by rw [h, Result.bind_ok, e]; rfl⟩)
  · exact .inr (.inl ⟨hp, by rw [h]; rfl⟩)

theorem isZero_iff {v : Word} : isZero v = true ↔ v = 0#32 := by simp [isZero]

theorem executeJz_cases (imm : Word) (s : State) :
    (∃ b, s.os.pop = some (0#32, b) ∧ (0 ≤ imm.toInt ∧ imm.toInt < s.progLen) ∧
      execute (.jz imm) s = .ok () { s with os := b, pc := imm }) ∨
    (∃ v b, s.os.pop = some (v, b) ∧ v ≠ 0#32 ∧ execute (.jz imm) s = .ok () { s with os := b }) ∨
    (s.os.pop = none ∧ execute (.jz imm) s = .raise .stackUnderflow s) ∨
    (∃ b, s.os.pop = some (0#32, b) ∧ ¬(0 ≤ imm.toInt ∧ imm.toInt < s.progLen) ∧
      execute (.jz imm) s = .raise .jumpOutOfBounds { s with os := b }) := by
  simp only [execute, executeJz, popOperand]
  rcases pop_cases .operand s with ⟨v, b, hp, h⟩ | ⟨hp, h⟩
  · by_cases hv : v = 0#32
    · subst hv
      rcases jump_cases imm (s.setStack .operand b) with ⟨hj, e⟩ | ⟨hj, e⟩
      · exact .inl ⟨b, hp, hj, by rw [h, Result.bind_ok, if_pos (isZero_iff.2 rfl), e]; rfl⟩
      · exact .inr (.inr (.inr ⟨b, hp, hj, by rw [h, Result.bind_ok, if_pos (isZero_iff.2 rfl), e]; rfl⟩))
    · exact .inr (.inl ⟨v, b, hp, hv, by rw [h, Result.bind_ok, if_neg (mt isZero_iff.1 hv)]; rfl⟩)
  · exact .inr (.inr (.inl ⟨hp, by rw [h]; rfl⟩))

theorem executeJnz_cases (imm : Word) (s : State) :
    (∃ v b, s.os.pop = some (v, b) ∧ v ≠ 0#32 ∧ (0 ≤ imm.toInt ∧ imm.toInt < s.progLen) ∧
      execute (.jnz imm) s = .ok () { s with os := b, pc := imm }) ∨
    (∃ b, s.os.pop = some (0#32, b) ∧ execute (.jnz imm) s = .ok () { s with os := b }) ∨
    (s.os.pop = none ∧ execute (.jnz imm) s = .raise .stackUnderflow s) ∨
    (∃ v b, s.os.pop = some (v, b) ∧ v ≠ 0#32 ∧ ¬(0 ≤ imm.toInt ∧ imm.toInt < s.progLen) ∧
      execute (.jnz imm) s = .raise .jumpOutOfBounds { s with os := b }) := by
  simp only [execute, executeJnz, popOperand]
  rcases pop_cases .operand s with ⟨v, b, hp, h⟩ | ⟨hp, h⟩
  · by_cases hv : v = 0#32
    · subst hv
      exact .inr (.inl ⟨b, hp, by rw [h, Result.bind_ok, if_pos (isZero_iff.2 rfl)]; rfl⟩)
    · rcases jump_cases imm (s.setStack .operand b) with ⟨hj, e⟩ | ⟨hj, e⟩
      · exact .inl ⟨v, b, hp, hv, hj, by rw [h, Result.bind_ok, if_neg (mt isZero_iff.1 hv), e]; rfl⟩
      · exact .inr (.inr (.inr ⟨v, b, hp, hv, hj, by rw [h, Result.bind_ok, if_neg (mt isZero_iff.1 hv), e]; rfl⟩))
  · exact .inr (.inr (.inl ⟨hp, by rw [h]; rfl⟩))

theorem executeCall_cases (imm : Word) (s : State) :
    (∃ b, s.rs.push s.pc = some b ∧ (0 ≤ imm.toInt ∧ imm.toInt < s.progLen) ∧
      execute (.call imm) s = .ok () { s with rs := b, pc := imm }) ∨
    (s.rs.push s.pc = none ∧ execute (.call imm) s = .raise .stackOverflow s) ∨
    (∃ b, s.rs.push s.pc = some b ∧ ¬(0 ≤ imm.toInt ∧ imm.toInt < s.progLen) ∧
      execute (.call imm) s = .raise .jumpOutOfBounds { s with rs := b }) := by
  simp only [execute, executeCall, pushReturn]
  rcases push_cases .ret s.pc s with ⟨b, hp, h⟩ | ⟨hp, h⟩
  · rcases jump_cases imm (s.setStack .ret b) with ⟨hj, e⟩ | ⟨hj, e⟩
    · exact .inl ⟨b, hp, hj, by rw [h, Result.bind_ok, e]; rfl⟩
    · exact .inr (.inr ⟨b, hp, hj, by rw [h, Result.bind_ok, e]; rfl⟩)
  · exact .inr (.inl ⟨hp, by rw [h]; rfl⟩)

theorem executeRet_cases (s : State) :
    (∃ t b, s.rs.pop = some (t, b) ∧ (0 ≤ t.toInt ∧ t.toInt < s.progLen) ∧
      execute .ret s = .ok () { s with rs := b, pc := t }) ∨
    (s.rs.pop = none ∧ execute .ret s = .raise .stackUnderflow s) ∨
    (∃ t b, s.rs.pop = some (t, b) ∧ ¬(0 ≤ t.toInt ∧ t.toInt < s.progLen) ∧
      execute .ret s = .raise .jumpOutOfBounds { s with rs := b }) := by
  simp only [execute, executeRet, popReturn]
  rcases pop_cases .ret s with ⟨t, b, hp, h⟩ | ⟨hp, h⟩
  · rcases jump_cases t (s.setStack .ret b) with ⟨hj, e⟩ | ⟨hj, e⟩
    · exact .inl ⟨t, b, hp, hj, by rw [h, Result.bind_ok, e]; rfl⟩
    · exact .inr (.inr ⟨t, b, hp, hj, by rw [h, Result.bind_ok, e]; rfl⟩)
  · exact .inr (.inl ⟨hp, by rw [h]; rfl⟩)

end Sys2Proof.Machine
end

