-- ==== Sys2Proof/Laws/Fetch.lean ====
section
/-! SUPPORT. What the fetch half of a step can do, and how a step is put together. -/

namespace Sys2Proof.Machine

@[simp] theorem loadParams_zero (s : State) : loadParams 0 s = .ok [] s := rfl

/-- LoadParams for one operand is one Fetch. -/
theorem loadParams_one (s : State) : loadParams 1 s = (fetch s).bind fun w t => .ok [w] t := rfl

/-- `t` is `s` but for `pc` and the latches. -/
def WritesAtMostFetch (s t : State) : Prop :=
  ∃ (p o m : Word), t = { s with pc := p, op := o, imm := m }

namespace WritesAtMostFetch

theorem refl (s : State) : WritesAtMostFetch s s := ⟨s.pc, s.op, s.imm, rfl⟩

theorem trans {s t u : State} (h1 : WritesAtMostFetch s t) (h2 : WritesAtMostFetch t u) : WritesAtMostFetch s u := by
  obtain ⟨p, o, m, rfl⟩ := h1
  obtain ⟨p', o', m', rfl⟩ := h2
  exact ⟨p', o', m', rfl⟩

theorem of_latchOp (s : State) (w : Word) : WritesAtMostFetch s (s.latchOp w) := ⟨s.pc, w, s.imm, rfl⟩

theorem of_latchImm (s : State) (ps : List Word) : WritesAtMostFetch s (s.latchImm ps) := by
  cases ps with
  | nil => exact refl s
  | cons w ws => exact ⟨s.pc, s.op, w, rfl⟩

end WritesAtMostFetch

theorem fetch_writes_at_most_fetch {s t : State} {w : Word} {e : ErrorKind}
    (h : fetch s = .ok w t ∨ fetch s = .raise e t) : WritesAtMostFetch s t := by
  rcases h with h | h
  · obtain ⟨-, rfl⟩ := fetch_eq_ok_iff.1 h
    exact ⟨_, s.op, s.imm, rfl⟩
  · obtain ⟨-, -, rfl⟩ := fetch_eq_raise_iff.1 h
    exact .refl _

theorem loadParams_writes_at_most_fetch {n : Nat} {s t : State} {ws : List Word} {e : ErrorKind}
    (h : loadParams n s = .ok ws t ∨ loadParams n s = .raise e t) : WritesAtMostFetch s t := by
  induction n generalizing s t ws with
  | zero =>
    rcases h with h | h <;> cases h
    exact .refl s
  | succ n ih =>
    simp only [loadParams, Result.bind_eq_ok_iff, Result.bind_eq_raise_iff] at h
    rcases h with ⟨w, s1, h1, ws', s2, h2, h3⟩ | h1 | ⟨w, s1, h1, h2 | ⟨ws', s2, -, h3⟩⟩
    · cases h3
      exact (fetch_writes_at_most_fetch (e := .outOfBounds) (.inl h1)).trans (ih (.inl h2))
    · exact fetch_writes_at_most_fetch (w := 0#32) (.inr h1)
    · exact (fetch_writes_at_most_fetch (e := .outOfBounds) (.inl h1)).trans (ih (ws := []) (.inr h2))
    · cases h3

/-- The fetch half of a step writes `pc` and the latches at most, whichever way it ends. -/
theorem fetchInstr_writes_at_most_fetch {s t : State} {i : Instr} {e : ErrorKind}
    (h : fetchInstr s = .ok i t ∨ fetchInstr s = .raise e t) : WritesAtMostFetch s t := by
  unfold fetchInstr at h
  cases h1 : fetch s with
  | raise e1 s1 =>
    simp only [h1, Result.bind_raise, reduceCtorEq, Result.raise.injEq, false_or] at h
    obtain ⟨rfl, rfl⟩ := h
    exact fetch_writes_at_most_fetch (w := 0#32) (.inr h1)
  | ok op s1 =>
    have w1 : WritesAtMostFetch s (s1.latchOp op) :=
      (fetch_writes_at_most_fetch (e := .outOfBounds) (.inl h1)).trans (.of_latchOp ..)
    simp only [h1, Result.bind_ok] at h
    cases hm : opcodeOf s.opc op with
    | none =>
      simp only [hm, reduceCtorEq, Result.raise.injEq, false_or] at h
      obtain ⟨-, rfl⟩ := h
      exact w1
    | some m =>
      simp only [hm] at h
      cases h2 : loadParams m.arity (s1.latchOp op) with
      | raise e2 s2 =>
        simp only [h2, Result.bind_raise, reduceCtorEq, Result.raise.injEq, false_or] at h
        obtain ⟨-, rfl⟩ := h
        exact w1.trans (loadParams_writes_at_most_fetch (ws := []) (.inr h2))
      | ok ps s2 =>
        have w2 := w1.trans (loadParams_writes_at_most_fetch (e := .outOfBounds) (.inl h2))
        have w3 : WritesAtMostFetch s (s2.latchImm ps) := w2.trans (.of_latchImm ..)
        simp only [h2, Result.bind_ok] at h
        cases ha : assemble m ps with
        | none =>
          simp only [ha, reduceCtorEq, Result.raise.injEq, false_or] at h
          obtain ⟨-, rfl⟩ := h
          exact w3
        | some j =>
          simp only [ha, Result.ok.injEq, reduceCtorEq, or_false] at h
          obtain ⟨-, rfl⟩ := h
          exact w3

/-- All that a step that answers a next state can be: a raise of the fetch half entered, or the execution of what was fetched. -/
theorem step_eq_next_iff {s t : State} :
    step s = .next t ↔ s.status = .running ∧
      ((∃ e s1, fetchInstr s = .raise e s1 ∧ t = (s1.enterError e).releaseLatches) ∨
       (∃ i s1 s2, fetchInstr s = .ok i s1 ∧ exec i s1 = .next s2 ∧ t = s2.releaseLatches)) := by
  unfold step stepGate
  cases s.status <;> simp only [reduceCtorEq, false_and, true_and]
  cases h : fetchInstr s with
  | ok i s1 => simp [mapNext_eq_next_iff]
  | raise e s1 => simp [@eq_comm _ t]

end Sys2Proof.Machine
end

