-- ==== Sys2Proof/Laws/Host.lean ====
section
/-! SUPPORT. All that the host's requests can do. -/

namespace Sys2Proof.Machine

/-- A load that is not refused: of no Words, with nothing changed, or of a program that fits, copied in. -/
theorem loadProgram_cases {s t : State} {ws : List Word} {answer : Option ErrorKind}
    (h : loadProgram ws s = .next (answer, t)) :
    s.status = .idle ∧ s.loaded = false ∧ ws.length ≤ s.progCap ∧
      ((ws = [] ∧ answer = some .emptyProgram ∧ t = s) ∨
       (ws ≠ [] ∧ answer = none ∧ t = { s with prog := ws, loaded := true })) := by
  unfold loadProgram at h
  split at h
  · cases h
  split at h
  · cases h
  split at h
  · cases h
  rename_i h1 h2 h3
  refine ⟨by simpa using h1, by simpa using h2, by simpa [Memory.wf] using h3, ?_⟩
  cases ws with
  | nil =>
    cases h
    exact .inl ⟨rfl, rfl, rfl⟩
  | cons w ws =>
    cases h
    exact .inr ⟨by simp, rfl, rfl⟩

/-- The load path from an image: the decoder's rejection with nothing changed, or the load of the decoded Words. -/
theorem loadImage_cases (image : List Byte) (s : State) :
    (∃ e, decodeImage image = .error e ∧ loadImage image s = .next (some (.ofDecodeError e), s)) ∨
    (∃ ws, decodeImage image = .ok ws ∧ loadImage image s = loadProgram ws s) := by
  cases h : decodeImage image with
  | error e => exact .inl ⟨e, rfl, by simp [loadImage, h]⟩
  | ok ws => exact .inr ⟨ws, rfl, by simp [loadImage, h]⟩

/-- A start that is not refused. -/
theorem startRun_cases {s t : State} (h : startRun s = .next t) :
    s.status = .idle ∧ s.loaded = true ∧ t = { s with status := .running } := by
  unfold startRun at h
  split at h
  · cases h
  split at h
  · cases h
  rename_i h1 h2
  cases h
  exact ⟨by simpa using h1, by simpa using h2, rfl⟩

/-- The loop of Run takes no step from a state that is not Running. -/
theorem runFor_of_not_running {s : State} (h : s.status ≠ .running) (fuel : Nat) : runFor fuel s = .next s := by
  cases fuel <;> simp [runFor, h]

end Sys2Proof.Machine
end

