-- ==== Sys2Proof/Laws/PerInstr.lean ====
section
/-! SUPPORT. A statement about every instruction as syntax, one lemma per constructor. -/

/-- 30_encoding.md R53, R54: an instruction is its opcode Word and then as many Words as its arity says, one or two in all. -/
def Sys2Proof.Laws.WordCount.Statement (i : Sys2Proof.Instr) : Prop :=
  ∀ opc : Sys2Proof.OpcodeMap,
    (Sys2Proof.encode opc i).head? = some (opc.code i.mnemonic) ∧
    (Sys2Proof.encode opc i).length = 1 + i.mnemonic.arity ∧ i.mnemonic.arity ≤ 1

namespace Sys2Proof.Laws.WordCount

theorem halt : Statement .halt := fun _ => ⟨rfl, rfl, by decide⟩
theorem nop : Statement .nop := fun _ => ⟨rfl, rfl, by decide⟩
theorem print : Statement .print := fun _ => ⟨rfl, rfl, by decide⟩
theorem push (imm : Word) : Statement (.push imm) := fun _ => ⟨rfl, rfl, by simp [Instr.mnemonic, Mnemonic.arity]⟩
theorem pop : Statement .pop := fun _ => ⟨rfl, rfl, by decide⟩
theorem add : Statement .add := fun _ => ⟨rfl, rfl, by decide⟩
theorem jmp : Statement .jmp := fun _ => ⟨rfl, rfl, by decide⟩
theorem jz (imm : Word) : Statement (.jz imm) := fun _ => ⟨rfl, rfl, by simp [Instr.mnemonic, Mnemonic.arity]⟩
theorem jnz (imm : Word) : Statement (.jnz imm) := fun _ => ⟨rfl, rfl, by simp [Instr.mnemonic, Mnemonic.arity]⟩
theorem call (imm : Word) : Statement (.call imm) := fun _ => ⟨rfl, rfl, by simp [Instr.mnemonic, Mnemonic.arity]⟩
theorem ret : Statement .ret := fun _ => ⟨rfl, rfl, by decide⟩

end Sys2Proof.Laws.WordCount
end

