-- ==== Sys2Proof/Laws/Word.lean ====
section
/-! SUPPORT. Word arithmetic in the range of program addresses, where nothing wraps. -/

namespace Sys2Proof

theorem toInt_ofNat_of_le {n : Nat} (h : n ≤ 2147483647) : (BitVec.ofNat 32 n).toInt = n := by
  have hn : (BitVec.ofNat 32 n).toNat = n := by
    rw [BitVec.toNat_ofNat]
    exact Nat.mod_eq_of_lt (by omega)
  rw [BitVec.toInt_eq_toNat_cond, hn, if_pos (by omega)]

/-- Advancing an address within the range of program addresses does not wrap (10_state.md R21). -/
theorem toInt_add_ofNat {a : Word} {n : Nat} (h0 : 0 ≤ a.toInt) (h : a.toInt + n ≤ 2147483647) :
    (a + BitVec.ofNat 32 n).toInt = a.toInt + n := by
  rw [BitVec.toInt_add, toInt_ofNat_of_le (by omega)]
  exact Int.bmod_eq_of_le (by omega) (by omega)

end Sys2Proof
end

