-- ==== Sys2Proof/Tests/Slice0.lean ====
section
/-! SUPPORT. Small tests, each with its expected value from spec/95_test_vectors.md (S and V numbers), from the opcode table or from
a rule, and a witness for the hypotheses of each statement. -/

namespace Sys2Proof.Tests

open Sys2Proof.Machine

/-! ### Small engines -/

/-- A stack of 3 slots holding `l`, its idle slots holding 7. -/
def smallStack (l : List Word) : BoundedStack :=
  { top := l.length, slot := l ++ List.replicate (3 - l.length) 7#32 }

/-- A Running engine with the decided opcodes, stacks of 3 slots and `PROG_CAP` 100. -/
def engine (prog : List Word) (pc : Word) (o r : List Word) : State :=
  { prog := prog, loaded := true, pc := pc, os := smallStack o, rs := smallStack r, out := [], status := .running,
    err := none, op := 170#32, imm := 187#32, draws := 5, progCap := 100, opc := OpcodeMap.decided }

/-- An Idle engine with nothing loaded. -/
def idleEngine : State := { engine [] 0#32 [] [] with loaded := false, status := .idle }

def stateOf (o : Host.Outcome State Fault Refusal) : Option State :=
  match o with
  | .next s => some s
  | .fault _ => none
  | .refused _ => none

/-- What the tests look at: `pc`, both contents, `out`, `status`, `err`. -/
structure Seen where
  pc : Word
  os : List Word
  rs : List Word
  out : List Word
  status : Status
  err : Option ErrorKind
deriving DecidableEq, Repr

def seen (s : State) : Seen := ⟨s.pc, s.os.content, s.rs.content, s.out, s.status, s.err⟩

def after (i : Instr) (s : State) : Option Seen := (stateOf (exec i s)).map seen

def afterStep (s : State) : Option Seen := (stateOf (step s)).map seen

def engineOk (prog : List Word) (pc : Word) (o r : List Word) : Bool :=
  decide (1 ≤ prog.length ∧ prog.length ≤ 100 ∧ 0 ≤ pc.toInt ∧ pc.toInt ≤ prog.length ∧ o.length ≤ 3 ∧ r.length ≤ 3 ∧
    ∀ v ∈ r, 2 ≤ v.toInt ∧ v.toInt ≤ prog.length)

theorem smallStack_wf (l : List Word) : (smallStack l).wf = true := by
  simp [BoundedStack.wf, BoundedStack.cap, smallStack]

theorem smallStack_content (l : List Word) : (smallStack l).content = l := by
  simp [BoundedStack.content, smallStack]

theorem test_opcodes_decided_wf : OpcodeMap.decided.wf = true := by decide

/-- The small engines meet the invariant. -/
theorem engine_inv {prog : List Word} {pc : Word} {o r : List Word} (h : engineOk prog pc o r = true) :
    Inv (engine prog pc o r) := by
  obtain ⟨h1, h2, h3, h4, -, -, h7⟩ := of_decide_eq_true h
  exact {
    cfgLegal := by simp [Config.wf, State.cfg, engine, test_opcodes_decided_wf]
    progFits := decide_eq_true h2
    loadedIff := by simpa [engine, State.progLen] using h1
    pcLow := h3
    pcHigh := h4
    osWf := smallStack_wf o
    rsWf := smallStack_wf r
    rsReturnAddresses := by
      have hc : (engine prog pc o r).rs.content = r := smallStack_content r
      rw [hc]
      exact h7
    startedLoaded := fun _ => rfl
    errIff := by simp [engine]
    errRun := by simp [engine] }

/-! ### Well-formedness smoke tests: each check refuses an ill-formed term -/

theorem test_opcodes_two_alike_refused : ({ OpcodeMap.decided with ret := 9#32 }).wf = false := by decide
theorem test_config_zero_progCap_refused : ({ referenceConfig with progCap := 0 }).wf = false := by decide
theorem test_config_large_progCap_refused : ({ referenceConfig with progCap := 2147483648 }).wf = false := by decide
theorem test_config_opcodes_alike_refused :
    ({ referenceConfig with opc := { OpcodeMap.decided with nop := 0#32 } }).wf = false := by decide
theorem test_config_reference_wf : referenceConfig.wf = true := by decide
theorem test_program_empty_refused : programWf 2 [] = false := by decide
theorem test_program_long_refused : programWf 2 [1#32, 1#32, 0#32] = false := by decide
theorem test_program_full_wf : programWf 2 [1#32, 0#32] = true := by decide

/-! ### Decoding: words written out from the table's match fields (30_encoding.md R57) -/

theorem test_decode_system :
    decode OpcodeMap.decided [0x00000000#32] = .ok (.halt, []) ∧
    decode OpcodeMap.decided [0x00000001#32, 0x0000002A#32] = .ok (.nop, [42#32]) := by decide
theorem test_decode_stack_io :
    decode OpcodeMap.decided [0x00000002#32] = .ok (.print, []) ∧
    decode OpcodeMap.decided [0x00000003#32, 0x80000000#32] = .ok (.push 0x80000000#32, []) ∧
    decode OpcodeMap.decided [0x00000004#32] = .ok (.pop, []) := by decide
theorem test_decode_arith : decode OpcodeMap.decided [0x00000005#32] = .ok (.add, []) := by decide
theorem test_decode_control :
    decode OpcodeMap.decided [0x00000006#32] = .ok (.jmp, []) ∧
    decode OpcodeMap.decided [0x00000007#32, 0xFFFFFFFF#32] = .ok (.jz 0xFFFFFFFF#32, []) ∧
    decode OpcodeMap.decided [0x00000008#32, 0x00000006#32] = .ok (.jnz 6#32, []) ∧
    decode OpcodeMap.decided [0x00000009#32, 0x00000005#32] = .ok (.call 5#32, []) ∧
    decode OpcodeMap.decided [0x0000000A#32] = .ok (.ret, []) := by decide
/-- S5, V7, V8 and R58: 11, −1, 0x7FFFFFFF and 99 are no opcodes. -/
theorem test_decode_unknown :
    decode OpcodeMap.decided [0x0000000B#32] = .error .unknownOpcode ∧
    decode OpcodeMap.decided [0xFFFFFFFF#32] = .error .unknownOpcode ∧
    decode OpcodeMap.decided [0x7FFFFFFF#32] = .error .unknownOpcode ∧
    decode OpcodeMap.decided [99#32, 0#32] = .error .unknownOpcode := by decide
/-- V6 and R67: no operand, no opcode. -/
theorem test_decode_short :
    decode OpcodeMap.decided [3#32] = .error .noOperand ∧ decode OpcodeMap.decided [] = .error .noOpcode := by decide
/-- R59: Words of PUSH 65 and JZ −1. -/
theorem test_encode : encode OpcodeMap.decided (.push 65#32) = [3#32, 65#32] ∧
    encode OpcodeMap.decided (.jz (-1#32)) = [7#32, 0xFFFFFFFF#32] := by decide
/-- V55 to V58, S10. -/
theorem test_image :
    decodeImage [] = .error .malformedEncoding ∧
    decodeImage [0#8, 0#8, 0#8, 1#8, 0#8] = .error .malformedEncoding ∧
    decodeImage [0x80#8, 0#8, 0#8, 0#8, 0xFF#8, 0xFF#8, 0xFF#8, 0xFE#8] = .ok [0x80000000#32, 0xFFFFFFFE#32] ∧
    decodeImage [0#8, 0#8, 0#8, 3#8, 0#8, 0#8, 0#8, 0x41#8] = .ok [3#32, 65#32] := by decide
theorem test_decodeTableWord :
    decodeTableWord 32 3 = some (.push 0#32) ∧ decodeTableWord 64 (3 + 65 * 4294967296) = some (.push 65#32) ∧
    decodeTableWord 32 (3 + 65 * 4294967296) = some (.push 0#32) ∧ decodeTableWord 32 10 = some .ret ∧
    decodeTableWord 32 11 = none := by decide
theorem test_withFetchWord_runs :
    afterStep (State.reset.withFetchWord 64 (3 + 65 * 4294967296)) = some ⟨2#32, [65#32], [], [], .running, none⟩ ∧
    afterStep (State.reset.withFetchWord 32 0) = some ⟨1#32, [], [], [], .halted, none⟩ := by decide +kernel

/-! ### One step or one arm for each instruction -/

/-- V13. -/
theorem test_halt : afterStep (engine [0#32] 0#32 [5#32] []) = some ⟨1#32, [5#32], [], [], .halted, none⟩ := by decide
/-- R81's example, first step. -/
theorem test_nop : afterStep (engine [1#32] 0#32 [] []) = some ⟨1#32, [], [], [], .running, none⟩ := by decide
/-- V9: running off the end. -/
theorem test_fetch_off_end :
    afterStep (engine [1#32] 1#32 [] []) = some ⟨1#32, [], [], [], .errored, some .outOfBounds⟩ := by decide
/-- V7: no operand is fetched of an unknown opcode. -/
theorem test_unknown_opcode :
    afterStep (engine [99#32, 1#32] 0#32 [] []) = some ⟨1#32, [], [], [], .errored, some .unknownOpcode⟩ := by decide
/-- R82's corner: the whole Word −1 goes out. -/
theorem test_print : afterStep (engine [2#32] 0#32 [65#32, 0xFFFFFFFF#32] [])
    = some ⟨1#32, [65#32], [], [0xFFFFFFFF#32], .running, none⟩ := by decide
/-- V16. -/
theorem test_print_empty :
    afterStep (engine [2#32] 0#32 [] []) = some ⟨1#32, [], [], [], .errored, some .stackUnderflow⟩ := by decide
/-- V12's first step: 99 as an immediate is legal. -/
theorem test_push : afterStep (engine [3#32, 99#32] 0#32 [1#32] []) = some ⟨2#32, [1#32, 99#32], [], [], .running, none⟩ := by decide
/-- V22: with `os` full the missing operand still comes first. -/
theorem test_push_no_operand_before_overflow : afterStep (engine [3#32] 0#32 [1#32, 2#32, 3#32] [])
    = some ⟨1#32, [1#32, 2#32, 3#32], [], [], .errored, some .outOfBounds⟩ := by decide
/-- R84's example. -/
theorem test_pop : after .pop (engine [4#32] 1#32 [1#32, 2#32] []) = some ⟨1#32, [1#32], [], [], .running, none⟩ := by decide
/-- V24: 0x7FFFFFFF + 1 wraps. -/
theorem test_add_wraps : after .add (engine [5#32] 1#32 [0x7FFFFFFF#32, 1#32] [])
    = some ⟨1#32, [0x80000000#32], [], [], .running, none⟩ := by decide
/-- V31: the popped Word is lost. -/
theorem test_add_one_word :
    after .add (engine [5#32] 1#32 [5#32] []) = some ⟨1#32, [], [], [], .errored, some .stackUnderflow⟩ := by decide
/-- V33. -/
theorem test_jmp : after .jmp (engine [6#32, 0#32, 0#32, 0#32, 0#32] 1#32 [3#32] [])
    = some ⟨3#32, [], [], [], .running, none⟩ := by decide
/-- V35. -/
theorem test_jmp_to_length : after .jmp (engine [6#32, 0#32, 0#32, 0#32, 0#32] 1#32 [8#32, 5#32] [])
    = some ⟨1#32, [8#32], [], [], .errored, some .jumpOutOfBounds⟩ := by decide
/-- V40: not taken, the target is not checked. -/
theorem test_jz_not_taken : after (.jz 0xFFFFFFFF#32) (engine [7#32, 0xFFFFFFFF#32] 2#32 [1#32] [])
    = some ⟨2#32, [], [], [], .running, none⟩ := by decide
/-- V39. -/
theorem test_jz_bad_target : after (.jz 0xFFFFFFFF#32) (engine [7#32, 0xFFFFFFFF#32] 2#32 [0#32] [])
    = some ⟨2#32, [], [], [], .errored, some .jumpOutOfBounds⟩ := by decide
/-- V44: −2^31 is not zero. -/
theorem test_jnz_taken : after (.jnz 1#32) (engine [8#32, 1#32] 2#32 [0x80000000#32] [])
    = some ⟨1#32, [], [], [], .running, none⟩ := by decide
/-- V46. -/
theorem test_jnz_not_taken : after (.jnz 2#32) (engine [8#32, 2#32] 2#32 [0#32] [])
    = some ⟨2#32, [], [], [], .running, none⟩ := by decide
/-- V47, R92's example: CALL 3 at 0 pushes 2. -/
theorem test_call : afterStep (engine [9#32, 3#32, 0#32, 1#32] 0#32 [4#32] [])
    = some ⟨3#32, [4#32], [2#32], [], .running, none⟩ := by decide
/-- V49: the pushed return address stays. -/
theorem test_call_bad_target : afterStep (engine [9#32, 0xFFFFFFFB#32] 0#32 [] [])
    = some ⟨2#32, [], [2#32], [], .errored, some .jumpOutOfBounds⟩ := by decide
/-- V52. -/
theorem test_ret : after .ret (engine [0#32, 0#32, 10#32] 3#32 [4#32] [2#32])
    = some ⟨2#32, [4#32], [], [], .running, none⟩ := by decide
/-- V54's last step: a return address equal to `L`. -/
theorem test_ret_to_length : afterStep (engine [3#32, 4#32, 6#32, 10#32, 9#32, 3#32] 3#32 [] [6#32])
    = some ⟨4#32, [], [], [], .errored, some .jumpOutOfBounds⟩ := by decide
/-- V3: the vacated slot keeps its Word. -/
theorem test_pop_keeps_slot : ((smallStack [7#32, 9#32]).pop.map fun r => r.2.slot) = some [7#32, 9#32, 7#32] := by decide
/-- S7: a direct ADD on an engine with no program. -/
theorem test_direct_add : directExecute 5#32 [] { idleEngine with os := smallStack [1#32, 2#32] }
    = .next (.ok () { idleEngine with os := { top := 1, slot := [3#32, 2#32, 7#32] } }) := by rfl
/-- S8: a direct CALL 0 at `pc` 0 pushes 0. -/
theorem test_direct_call : directExecute 9#32 [0#32] (engine [1#32] 0#32 [] [])
    = .next (.ok () (engine [1#32] 0#32 [] [] |>.setStack .ret (smallStack [0#32]))) := by rfl
/-- S3, V59, V60. -/
theorem test_load :
    loadProgram [] idleEngine = .next (some .emptyProgram, idleEngine) ∧
    loadProgram [5#32, 6#32] idleEngine = .next (none, { idleEngine with prog := [5#32, 6#32], loaded := true }) ∧
    loadProgram [0#32] { idleEngine with prog := [0#32], loaded := true } = .refused .reload := ⟨rfl, rfl, rfl⟩
/-- S9 and R7: only 65 has a fixed rendering. -/
theorem test_render : sinkBytes [65#32] = [0x41#8] := by decide
/-- No step from reset (log 10). -/
theorem test_reset_idle : step State.reset = .fault .idle := rfl

/-! ### Witnesses: the hypotheses of each statement, met together by something concrete -/

theorem witness_DecodeOfEncodeIsTheInstruction :
    OpcodeMap.wf { OpcodeMap.decided with halt := 10#32, ret := 0xFFFFFFFF#32 } = true := by decide
theorem witness_EncodeOfDecodeIsTheWords :
    decode OpcodeMap.decided [3#32, 65#32, 0#32] = .ok (.push 65#32, [0#32]) := by decide
theorem witness_ArityIsTotalAndStable : OpcodeMap.decided.wf = true ∧ (10#32 : Word) ∈ OpcodeMap.decided.words ∧
    (11#32 : Word) ∉ OpcodeMap.decided.words ∧ (0xFFFFFFFF#32 : Word) ∉ OpcodeMap.decided.words := by decide
theorem witness_ImageDecodesBigEndianWords :
    ([] : List Byte).length = 0 ∧ [0#8, 0#8, 0#8, 1#8, 0#8].length % 4 ≠ 0 ∧
    ¬([0#8, 0#8, 0#8, 1#8].length = 0 ∨ [0#8, 0#8, 0#8, 1#8].length % 4 ≠ 0) := by decide
theorem witness_ImageRoundTrip :
    [0#32] ≠ ([] : List Word) ∧ decodeImage [0#8, 0#8, 0#8, 1#8] = .ok [1#32] := by decide
theorem witness_PushStoresAtTheTop :
    ((engine [1#32] 0#32 [1#32, 2#32, 3#32] []).stack .operand).top = ((engine [1#32] 0#32 [1#32, 2#32, 3#32] []).stack .operand).cap ∧
    ((engine [1#32] 0#32 [] []).stack .ret).top ≠ ((engine [1#32] 0#32 [] []).stack .ret).cap := by decide
theorem witness_PopReturnsTheTop :
    (((engine [1#32] 0#32 [] [2#32]).stack .operand).wf = true ∧ ((engine [1#32] 0#32 [] [2#32]).stack .operand).top = 0) ∧
    (((engine [1#32] 0#32 [] [2#32]).stack .ret).wf = true ∧ ((engine [1#32] 0#32 [] [2#32]).stack .ret).top ≠ 0) := by decide
theorem witness_CapacityNeverChanges :
    ((⟨0, []⟩ : BoundedStack).cap = 0 ∧ (⟨0, []⟩ : BoundedStack).wf = true) ∧
    (smallStack [1#32]).push 2#32 = some (smallStack [1#32, 2#32]) ∧
    ((smallStack [1#32]).pop).isSome = true ∧
    (stateOf (step (engine [1#32] 0#32 [] []))).isSome = true ∧
    (stateOf (startRun { engine [1#32] 0#32 [] [] with status := .idle })).isSome = true := by decide
theorem witness_CapacityNeverChanges_load : (∃ t : State, loadProgram [0#32] idleEngine = .next (none, t)) ∧
    (∃ t, execute .pop (engine [4#32] 1#32 [5#32] []) = .ok () t) ∧ (∃ t, execute .ret (engine [10#32] 1#32 [] []) = .raise .stackUnderflow t) :=
  ⟨⟨_, rfl⟩, ⟨_, rfl⟩, ⟨_, rfl⟩⟩
theorem witness_StackLaw :
    [1#32, 2#32].length = 2 ∧ (smallStack [1#32]).wf = true ∧ (smallStack [1#32]).top + [2#32, 3#32].length ≤ (smallStack [1#32]).cap ∧
    (smallStack [1#32, 2#32]).content = [1#32] ++ [2#32] := by decide
theorem witness_StacksDoNotAlias :
    (∃ t, push .operand 4#32 (engine [1#32] 0#32 [5#32] [2#32]) = .ok () t) ∧
    (∃ t, pop .operand (engine [1#32] 0#32 [5#32] [2#32]) = .ok 5#32 t) ∧
    (∃ t, push .ret 4#32 (engine [1#32] 0#32 [5#32] [2#32]) = .ok () t) ∧
    (∃ t, pop .ret (engine [1#32] 0#32 [5#32] [2#32]) = .ok 2#32 t) := ⟨⟨_, rfl⟩, ⟨_, rfl⟩, ⟨_, rfl⟩, ⟨_, rfl⟩⟩
theorem witness_FetchReadsAndAdvances :
    (engine [1#32, 0#32] (-1#32) [] []).pc.toInt < 0 ∧
    ((engine [1#32, 0#32] 2#32 [] []).progLen : Int) ≤ (engine [1#32, 0#32] 2#32 [] []).pc.toInt ∧
    (0 ≤ (engine [1#32, 0#32] 1#32 [] []).pc.toInt ∧
      (engine [1#32, 0#32] 1#32 [] []).pc.toInt < (engine [1#32, 0#32] 1#32 [] []).progLen) := by decide
theorem witness_LoadParamsFetchesExactlyN : Inv (engine [1#32, 0#32] 1#32 [] []) ∧
    (engine [1#32, 0#32] 1#32 [] []).pc.toInt + (1 : Nat) ≤ (engine [1#32, 0#32] 1#32 [] []).progLen ∧
    ((engine [1#32, 0#32] 1#32 [] []).progLen : Int) < (engine [1#32, 0#32] 1#32 [] []).pc.toInt + (2 : Nat) :=
  ⟨engine_inv (by simp [engineOk]), by decide, by decide⟩
theorem witness_JumpSucceedsIffInBounds :
    (0 ≤ (1#32 : Word).toInt ∧ (1#32 : Word).toInt < (engine [1#32, 0#32] 0#32 [] []).progLen) ∧
    ¬(0 ≤ (2#32 : Word).toInt ∧ (2#32 : Word).toInt < (engine [1#32, 0#32] 0#32 [] []).progLen) ∧
    ¬(0 ≤ (-1#32 : Word).toInt ∧ (-1#32 : Word).toInt < (engine [1#32, 0#32] 0#32 [] []).progLen) := by decide
theorem witness_ErrorEntryWritesErrAndStatusOnly :
    (engine [1#32] 1#32 [] []).status = .running ∧ (engine [4#32] 0#32 [] []).status = .running ∧
    fetchInstr (engine [1#32] 1#32 [] []) = .raise .outOfBounds (engine [1#32] 1#32 [] []) ∧
    ∃ s1 s2 : State, fetchInstr (engine [4#32] 0#32 [] []) = .ok .pop s1 ∧ execute .pop s1 = .raise .stackUnderflow s2 :=
  ⟨rfl, rfl, rfl, _, _, rfl, rfl⟩
theorem witness_StepRunsTheDecodedInstruction : Inv (engine [1#32, 3#32, 65#32] 1#32 [] []) ∧
    (engine [1#32, 3#32, 65#32] 1#32 [] []).status = .running ∧
    decode (engine [1#32, 3#32, 65#32] 1#32 [] []).opc (engine [1#32, 3#32, 65#32] 1#32 [] []).upcoming = .ok (.push 65#32, []) :=
  ⟨engine_inv (by simp [engineOk]), rfl, by decide⟩
theorem witness_StepEntersTheErrorOfARejectedFetch :
    (Inv (engine [1#32] 1#32 [] []) ∧ decode OpcodeMap.decided (engine [1#32] 1#32 [] []).upcoming = .error .noOpcode) ∧
    (Inv (engine [99#32] 0#32 [] []) ∧ decode OpcodeMap.decided (engine [99#32] 0#32 [] []).upcoming = .error .unknownOpcode) ∧
    (Inv (engine [3#32] 0#32 [] []) ∧ decode OpcodeMap.decided (engine [3#32] 0#32 [] []).upcoming = .error .noOperand) ∧
    ∀ prog pc, (engine prog pc [] []).status = .running :=
  ⟨⟨engine_inv (by simp [engineOk]), by decide⟩, ⟨engine_inv (by simp [engineOk]), by decide⟩, ⟨engine_inv (by simp [engineOk]), by decide⟩, fun _ _ => rfl⟩
/-- For PRINT, POP, and with v = 9 or v = 0 the clauses of JZ and JNZ. -/
theorem witness_PrintWritesThePoppedWord : (engine [2#32] 1#32 [8#32, 9#32] []).os.wf = true ∧
    (engine [2#32] 1#32 [8#32, 9#32] []).os.content = [8#32] ++ [9#32] := by decide
theorem witness_PushPushesTheImmediate :
    (engine [3#32, 1#32] 2#32 [8#32, 9#32] []).os.top < (engine [3#32, 1#32] 2#32 [8#32, 9#32] []).os.cap := by decide
theorem witness_PopDiscardsTheTop : (engine [4#32] 1#32 [9#32] []).os.wf = true ∧
    (engine [4#32] 1#32 [9#32] []).os.content = [] ++ [9#32] := by decide
theorem witness_AddPushesTheWrappedSum : (engine [5#32] 1#32 [9#32, 1#32, 2#32] []).os.wf = true ∧
    (engine [5#32] 1#32 [9#32, 1#32, 2#32] []).os.content = [9#32] ++ [1#32, 2#32] := by decide
theorem witness_JmpGoesToThePoppedTarget : (engine [6#32, 0#32] 1#32 [1#32] []).os.wf = true ∧
    (engine [6#32, 0#32] 1#32 [1#32] []).os.content = [] ++ [1#32] ∧ 0 ≤ (1#32 : Word).toInt ∧
    (1#32 : Word).toInt < (engine [6#32, 0#32] 1#32 [1#32] []).progLen := by decide
theorem witness_JzBranchesOnZero :
    ((engine [7#32, 1#32] 2#32 [5#32] []).os.wf = true ∧ (engine [7#32, 1#32] 2#32 [5#32] []).os.content = [] ++ [5#32] ∧
      (5#32 : Word) ≠ 0#32) ∧
    ((engine [7#32, 1#32] 2#32 [0#32] []).os.wf = true ∧ (engine [7#32, 1#32] 2#32 [0#32] []).os.content = [] ++ [0#32] ∧
      0 ≤ (1#32 : Word).toInt ∧ (1#32 : Word).toInt < (engine [7#32, 1#32] 2#32 [0#32] []).progLen) := by decide
theorem witness_JnzBranchesOnNonZero :
    ((engine [8#32, 1#32] 2#32 [0#32] []).os.wf = true ∧ (engine [8#32, 1#32] 2#32 [0#32] []).os.content = [] ++ [0#32]) ∧
    ((engine [8#32, 1#32] 2#32 [5#32] []).os.wf = true ∧ (engine [8#32, 1#32] 2#32 [5#32] []).os.content = [] ++ [5#32] ∧
      (5#32 : Word) ≠ 0#32 ∧ 0 ≤ (0#32 : Word).toInt ∧ (0#32 : Word).toInt < (engine [8#32, 1#32] 2#32 [5#32] []).progLen) := by decide
theorem witness_CallLinksAndJumps :
    (engine [9#32, 1#32] 2#32 [] [2#32, 2#32]).rs.top < (engine [9#32, 1#32] 2#32 [] [2#32, 2#32]).rs.cap ∧
    0 ≤ (1#32 : Word).toInt ∧ (1#32 : Word).toInt < (engine [9#32, 1#32] 2#32 [] [2#32, 2#32]).progLen := by decide
theorem witness_RetReturnsToThePoppedAddress : (engine [10#32, 0#32, 0#32] 1#32 [] [2#32]).rs.wf = true ∧
    (engine [10#32, 0#32, 0#32] 1#32 [] [2#32]).rs.content = [] ++ [2#32] ∧ 0 ≤ (2#32 : Word).toInt ∧
    (2#32 : Word).toInt < (engine [10#32, 0#32, 0#32] 1#32 [] [2#32]).progLen := by decide
theorem witness_EmptyOperandStackUnderflows : (engine [4#32] 1#32 [] []).os.top = 0 ∧
    (Instr.jnz 3#32 = .print ∨ Instr.jnz 3#32 = .pop ∨ Instr.jnz 3#32 = .add ∨ Instr.jnz 3#32 = .jmp ∨
      Instr.jnz 3#32 = .jz 3#32 ∨ Instr.jnz 3#32 = .jnz 3#32) := by decide
theorem witness_AddLosesTheFirstPoppedWord :
    (engine [5#32] 1#32 [5#32] []).os.wf = true ∧ (engine [5#32] 1#32 [5#32] []).os.top = 1 := by decide
theorem witness_FullOperandStackOverflowsPush :
    (engine [3#32, 1#32] 2#32 [1#32, 2#32, 3#32] []).os.top = (engine [3#32, 1#32] 2#32 [1#32, 2#32, 3#32] []).os.cap := by decide
theorem witness_FullReturnStackOverflowsCall :
    (engine [9#32, 1#32] 2#32 [] [2#32, 2#32, 2#32]).rs.top = (engine [9#32, 1#32] 2#32 [] [2#32, 2#32, 2#32]).rs.cap := by decide
theorem witness_EmptyReturnStackUnderflowsRet : (engine [10#32] 1#32 [] []).rs.top = 0 := by decide
theorem witness_FailedJumpKeepsTheStackEffect :
    ¬(0 ≤ (3#32 : Word).toInt ∧ (3#32 : Word).toInt < (engine [6#32, 0#32, 0#32] 1#32 [3#32] [3#32]).progLen) ∧
    ((engine [6#32, 0#32, 0#32] 1#32 [3#32] [3#32]).os.wf = true ∧
      (engine [6#32, 0#32, 0#32] 1#32 [3#32] [3#32]).os.content = [] ++ [3#32]) ∧
    (engine [6#32, 0#32, 0#32] 1#32 [0#32] [3#32]).os.content = [] ++ [0#32] ∧
    (engine [6#32, 0#32, 0#32] 1#32 [3#32] [3#32]).rs.top < (engine [6#32, 0#32, 0#32] 1#32 [3#32] [3#32]).rs.cap ∧
    ((engine [6#32, 0#32, 0#32] 1#32 [3#32] [3#32]).rs.wf = true ∧
      (engine [6#32, 0#32, 0#32] 1#32 [3#32] [3#32]).rs.content = [] ++ [3#32]) := by decide
/-- A full `os` is among the states meant. -/
theorem witness_AddNeverOverflows : (engine [5#32] 1#32 [1#32, 2#32, 3#32] []).os.wf = true := by decide
theorem witness_AdditionWraps : (engine [5#32] 1#32 [1#32, 2#32] []).os.wf = true ∧ 2 ≤ (engine [5#32] 1#32 [1#32, 2#32] []).os.top := by
  decide
theorem witness_SystemFrame : (stateOf (exec .nop (engine [1#32] 1#32 [] []))).isSome = true ∧
    (stateOf (exec .halt (engine [0#32] 1#32 [] []))).isSome = true := by decide
theorem witness_OperandStackFrame : (stateOf (exec .print (engine [2#32] 1#32 [5#32] []))).isSome = true ∧
    (stateOf (exec (.push 1#32) (engine [3#32, 1#32] 2#32 [5#32] []))).isSome = true ∧
    (stateOf (exec .pop (engine [4#32] 1#32 [5#32] []))).isSome = true ∧
    (stateOf (exec .add (engine [5#32] 1#32 [5#32, 6#32] []))).isSome = true := by decide
theorem witness_BranchFrame : (stateOf (exec .jmp (engine [6#32] 1#32 [0#32] []))).isSome = true ∧
    (stateOf (exec (.jz 1#32) (engine [7#32, 1#32] 2#32 [0#32] []))).isSome = true ∧
    (stateOf (exec (.jnz 1#32) (engine [8#32, 1#32] 2#32 [5#32] []))).isSome = true := by decide
theorem witness_CallReturnFrame : (stateOf (exec (.call 0#32) (engine [9#32, 0#32] 2#32 [] []))).isSome = true ∧
    (stateOf (exec .ret (engine [10#32, 0#32, 0#32] 1#32 [] [2#32]))).isSome = true := by decide
theorem witness_DirectExecuteReportsToItsCaller :
    (engine [1#32] 0#32 [] []).opc.wf = true ∧ arity OpcodeMap.decided 11#32 = .error .unknownOpcode ∧
    (arity OpcodeMap.decided 3#32 = .ok 1 ∧ ([] : List Word).length ≠ 1) ∧
    execute .nop (engine [1#32] 0#32 [] []) = .ok () (engine [1#32] 0#32 [] []) ∧
    execute .pop (engine [1#32] 0#32 [] []) = .raise .stackUnderflow (engine [1#32] 0#32 [] []) ∧ Instr.pop ≠ .halt := by decide
theorem witness_ConstructionLeavesTheResetValues : State.reset = State.construct referenceConfig (fun _ => 0#32) (fun _ => 0#32) := rfl
theorem witness_ConstructionHasTheInvariant : Config.wf { referenceConfig with operandCap := 0, progCap := 1 } = true := by decide +kernel
theorem witness_StepKeepsTheInvariant : Inv (engine [9#32, 0#32] 0#32 [] [2#32]) ∧
    (stateOf (step (engine [9#32, 0#32] 0#32 [] [2#32]))).isSome = true := ⟨engine_inv (by simp [engineOk]), by decide⟩
theorem idleEngine_inv : Inv idleEngine where
  cfgLegal := by decide +kernel
  progFits := by decide
  loadedIff := by decide
  pcLow := by decide
  pcHigh := by decide
  osWf := by decide
  rsWf := by decide
  rsReturnAddresses := by simp [idleEngine, engine, BoundedStack.content, smallStack]
  startedLoaded := by decide
  errIff := by decide
  errRun := by simp [idleEngine, engine]
theorem witness_HostRequestsKeepTheInvariant : Inv idleEngine ∧ (∃ t, loadProgram [0#32] idleEngine = .next (none, t)) ∧
    Inv { idleEngine with prog := [0#32], loaded := true } ∧ (∃ t, startRun { idleEngine with prog := [0#32], loaded := true } = .next t) :=
  ⟨idleEngine_inv, ⟨_, rfl⟩, { idleEngine_inv with
    progFits := by decide
    loadedIff := by decide
    pcHigh := by decide
    startedLoaded := by decide
    rsReturnAddresses := by simp [idleEngine, engine, BoundedStack.content, smallStack] }, ⟨_, rfl⟩⟩
theorem witness_ReachableStatesHaveTheInvariant : ∃ s : State, Reachable s ∧ s.status = .running :=
  have h0 := Reachable.construct { operandCap := 0, returnCap := 2, progCap := 1, opc := OpcodeMap.decided } (fun _ => 0#32) (fun _ => 0#32)
    (by decide +kernel)
  have h1 := h0.load (ws := [0#32]) (answer := none) rfl
  ⟨_, h1.start rfl, rfl⟩
theorem witness_ProgramMemoryIsReadOnly : (stateOf (step (engine [4#32] 0#32 [1#32] []))).isSome = true ∧
    (stateOf (startRun { engine [4#32] 0#32 [] [] with status := .idle })).isSome = true := by decide
theorem witness_ConfigurationNeverChanges : (stateOf (step (engine [4#32] 0#32 [1#32] []))).isSome = true := by decide
/-- Two engines that differ in an idle slot, the latches and the counter. -/
theorem witness_StepDoesNotSeeHiddenState :
    State.visible (engine [4#32] 0#32 [1#32] []) =
      State.visible { engine [4#32] 0#32 [1#32] [] with os := ⟨1, [1#32, 5#32, 6#32]⟩, op := 0#32, imm := 1#32, draws := 9 } ∧
    engine [4#32] 0#32 [1#32] [] ≠
      { engine [4#32] 0#32 [1#32] [] with os := ⟨1, [1#32, 5#32, 6#32]⟩, op := 0#32, imm := 1#32, draws := 9 } := by decide
theorem witness_RunDoesNotSeeHiddenState :
    State.visible (engine [3#32, 1#32] 0#32 [] [2#32]) =
      State.visible { engine [3#32, 1#32] 0#32 [] [2#32] with rs := ⟨1, [2#32, 0#32, 0#32]⟩ } := by decide
theorem witness_OnlyPrintWritesTheOutput : Inv (engine [2#32] 0#32 [65#32] []) ∧ Inv (engine [1#32] 0#32 [65#32] []) ∧
    (stateOf (step (engine [2#32] 0#32 [65#32] []))).isSome = true ∧ (stateOf (step (engine [1#32] 0#32 [65#32] []))).isSome = true ∧
    decode OpcodeMap.decided (engine [2#32] 0#32 [65#32] []).upcoming = .ok (.print, []) ∧
    (engine [2#32] 0#32 [65#32] []).os.content.getLast? = some 65#32 ∧
    decode OpcodeMap.decided (engine [1#32] 0#32 [65#32] []).upcoming = .ok (.nop, []) :=
  ⟨engine_inv (by simp [engineOk]), engine_inv (by simp [engineOk]), by decide, by decide, by decide, by decide, by decide⟩
/-- PRINT on an empty `os`. -/
theorem witness_OnlyPrintWritesTheOutput_empty : Inv (engine [2#32] 0#32 [] []) ∧
    (stateOf (step (engine [2#32] 0#32 [] []))).isSome = true ∧ (engine [2#32] 0#32 [] []).os.content = [] :=
  ⟨engine_inv (by simp [engineOk]), by decide, by decide⟩
theorem witness_NoStepOutsideRunning : idleEngine.status = .idle ∧ (idleEngine.halt).status = .halted ∧
    (idleEngine.enterError .outOfBounds).status = .errored := by decide
theorem witness_RunningStepAlwaysCompletes : (engine [99#32] 0#32 [] []).status = .running := rfl
theorem witness_StatusAfterAStep : Inv (engine [0#32] 0#32 [] []) ∧ (stateOf (step (engine [0#32] 0#32 [] []))).isSome = true ∧
    decode OpcodeMap.decided (engine [0#32] 0#32 [] []).upcoming = .ok (.halt, []) := ⟨engine_inv (by simp [engineOk]), by decide, by decide⟩
theorem witness_PcAfterEachInstruction : Inv (engine [9#32, 0#32] 0#32 [] []) ∧
    decode OpcodeMap.decided (engine [9#32, 0#32] 0#32 [] []).upcoming = .ok (.call 0#32, []) ∧
    afterStep (engine [9#32, 0#32] 0#32 [] []) = some ⟨0#32, [], [2#32], [], .running, none⟩ :=
  ⟨engine_inv (by simp [engineOk]), by decide, by decide⟩
theorem witness_PcAfterEachError : Inv (engine [3#32] 0#32 [] []) ∧ Inv (engine [7#32, 5#32] 0#32 [0#32] []) ∧
    afterStep (engine [3#32] 0#32 [] []) = some ⟨1#32, [], [], [], .errored, some .outOfBounds⟩ ∧
    afterStep (engine [7#32, 5#32] 0#32 [0#32] []) = some ⟨2#32, [], [], [], .errored, some .jumpOutOfBounds⟩ :=
  ⟨engine_inv (by simp [engineOk]), engine_inv (by simp [engineOk]), by decide, by decide⟩
theorem witness_PcAfterEachError_unfetched : Inv (engine [1#32] 1#32 [] []) ∧ Inv (engine [99#32] 0#32 [] []) ∧
    (stateOf (step (engine [1#32] 1#32 [] []))).map (fun t => t.status) = some .errored ∧
    (stateOf (step (engine [99#32] 0#32 [] []))).map (fun t => t.status) = some .errored :=
  ⟨engine_inv (by simp [engineOk]), engine_inv (by simp [engineOk]), by decide, by decide⟩
theorem witness_RetFailsOnlyAtTheProgramEnd : Inv (engine [10#32, 0#32] 1#32 [] [2#32]) ∧
    ∃ t, execute .ret (engine [10#32, 0#32] 1#32 [] [2#32]) = .raise .jumpOutOfBounds t := ⟨engine_inv (by simp [engineOk]), _, rfl⟩
theorem witness_LoadProgramCopiesOnce : idleEngine.status = .idle ∧ idleEngine.loaded = false ∧
    programWf idleEngine.progCap [0#32] = true ∧ ({ idleEngine with progCap := 1 }).progCap < [0#32, 0#32].length ∧
    ({ idleEngine with loaded := true }).loaded = true ∧ (engine [0#32] 0#32 [] []).status ≠ .idle ∧
    ([0#8, 0#8, 0#8, 1#8, 0#8].length % 4 ≠ 0) ∧ decodeImage [0#8, 0#8, 0#8, 1#8] = .ok [1#32] := by decide
theorem witness_RunStartsALoadedIdleEngine : idleEngine.status = .idle ∧ idleEngine.loaded = false ∧
    ({ idleEngine with prog := [0#32], loaded := true }).loaded = true ∧ (engine [0#32] 0#32 [] []).status ≠ .idle ∧
    programWf referenceConfig.progCap [0#32] = true := by decide +kernel
theorem witness_RunEndIsUnique :
    (stateOf (runFor 1 (engine [0#32] 0#32 [] []))).map (fun t => t.status) = some .halted ∧
    (stateOf (runFor 2 (engine [0#32] 0#32 [] []))).map (fun t => t.status) = some .halted ∧
    (idleEngine.enterError .outOfBounds).status = .errored ∧ (engine [0#32] 0#32 [] []).status = .running ∧
    idleEngine.status = .idle := by decide

end Sys2Proof.Tests
end

/-! PROOFS. Relations that every shared operation keeps, and the engine's configuration as one of them. -/

namespace Sys2Proof.Machine

/-! ### What an Execute arm does is a sequence of shared operations -/

/-- `R` relates a state to itself, composes, and holds across each write a shared operation can make:
a push or pop that succeeds, a Jump inside the program, an output. -/
structure KeptByOperations (R : State → State → Prop) : Prop where
  refl (s : State) : R s s
  trans {s t u : State} (h1 : R s t) (h2 : R t u) : R s u
  onPush {n : StackName} {v : Word} {s : State} {b : BoundedStack} (h : (s.stack n).push v = some b) : R s (s.setStack n b)
  onPop {n : StackName} {v : Word} {s : State} {b : BoundedStack} (h : (s.stack n).pop = some (v, b)) : R s (s.setStack n b)
  onJump {a : Word} {s : State} (h : 0 ≤ a.toInt ∧ a.toInt < s.progLen) : R s (s.setPc a)
  onOutWrite (v : Word) (s : State) : R s (s.outWrite v)

namespace KeptByOperations

variable {R : State → State → Prop} (hR : KeptByOperations R)

include hR

theorem across_push (n : StackName) (v : Word) (s : State) : R s (push n v s).state := by
  rcases push_cases n v s with ⟨b, hb, h⟩ | ⟨-, h⟩ <;> rw [h]
  · exact hR.onPush hb
  · exact hR.refl s

theorem across_pop (n : StackName) (s : State) : R s (pop n s).state := by
  rcases pop_cases n s with ⟨v, b, hb, h⟩ | ⟨-, h⟩ <;> rw [h]
  · exact hR.onPop hb
  · exact hR.refl s

theorem across_jump (a : Word) (s : State) : R s (jump a s).state := by
  rcases jump_cases a s with ⟨ha, h⟩ | ⟨-, h⟩ <;> rw [h]
  · exact hR.onJump ha
  · exact hR.refl s

theorem across_bind {α β : Type} {s : State} {r : Result α} {f : α → State → Result β} (hr : R s r.state)
    (hf : ∀ a t, R t (f a t).state) : R s (r.bind f).state := by
  cases r with
  | ok a t => exact hR.trans hr (hf a t)
  | raise e t => exact hr

/-- Such a relation holds across every Execute arm, whichever way it ends. -/
theorem across_execute (i : Instr) (s : State) : R s (execute i s).state := by
  cases i with
  | halt | nop => exact hR.refl s
  | print => exact hR.across_bind (hR.across_pop ..) hR.onOutWrite
  | push imm => exact hR.across_push ..
  | pop => exact hR.across_bind (hR.across_pop ..) fun _ => hR.refl
  | add => exact hR.across_bind (hR.across_pop ..) fun _ _ => hR.across_bind (hR.across_pop ..) fun _ _ => hR.across_push ..
  | jmp | ret => exact hR.across_bind (hR.across_pop ..) hR.across_jump
  | jz imm =>
    refine hR.across_bind (hR.across_pop ..) fun v t => ?_
    cases isZero v
    · exact hR.refl t
    · exact hR.across_jump ..
  | jnz imm =>
    refine hR.across_bind (hR.across_pop ..) fun v t => ?_
    cases isZero v
    · exact hR.across_jump ..
    · exact hR.refl t
  | call imm => exact hR.across_bind (hR.across_push ..) fun _ => hR.across_jump imm

end KeptByOperations

/-- In a step an arm ends as HALT, or in the state its Execute arm left, with or without error entry. -/
theorem exec_eq_next_cases {i : Instr} {s t : State} (h : exec i s = .next t) :
    (i = .halt ∧ t = s.halt) ∨
    (i ≠ .halt ∧ (execute i s = .ok () t ∨ ∃ e u, execute i s = .raise e u ∧ t = u.enterError e)) := by
  by_cases hi : i = .halt
  · subst hi
    cases h
    exact .inl ⟨rfl, rfl⟩
  · rw [exec_eq_settle hi, settle_eq_next_iff] at h
    exact .inr ⟨hi, h⟩

/-! ### The configuration -/

/-- `t` has the construction arguments and the `loaded` flag of `s` (00_scope.md R7, 10_state.md R25). -/
def SameConfiguration (s t : State) : Prop := t.cfg = s.cfg ∧ t.loaded = s.loaded

namespace SameConfiguration

theorem refl (s : State) : SameConfiguration s s := ⟨rfl, rfl⟩

theorem trans {s t u : State} (h1 : SameConfiguration s t) (h2 : SameConfiguration t u) : SameConfiguration s u :=
  ⟨h2.1.trans h1.1, h2.2.trans h1.2⟩

/-- A stack may be replaced by one of the same capacity. -/
theorem of_setStack {n : StackName} {s : State} {b : BoundedStack} (h : b.cap = (s.stack n).cap) :
    SameConfiguration s (s.setStack n b) := by
  cases n <;> simp_all [SameConfiguration, State.cfg]

theorem of_halt (s : State) : SameConfiguration s s.halt := ⟨rfl, rfl⟩

theorem of_enterError (s : State) (e : ErrorKind) : SameConfiguration s (s.enterError e) := ⟨rfl, rfl⟩

theorem of_releaseLatches (s : State) : SameConfiguration s s.releaseLatches := ⟨rfl, rfl⟩

theorem of_writes_at_most_fetch {s t : State} (h : WritesAtMostFetch s t) : SameConfiguration s t := by
  obtain ⟨p, o, m, rfl⟩ := h
  exact ⟨rfl, rfl⟩

theorem keptByOperations : KeptByOperations SameConfiguration where
  refl := refl
  trans := trans
  onPush h := of_setStack (BoundedStack.cap_push h)
  onPop h := of_setStack (BoundedStack.cap_pop h)
  onJump _ := ⟨rfl, rfl⟩
  onOutWrite _ _ := ⟨rfl, rfl⟩

/-- The Execute arms keep the configuration, whichever way they end. -/
theorem of_execute (i : Instr) (s : State) : SameConfiguration s (execute i s).state := keptByOperations.across_execute i s

theorem of_exec {i : Instr} {s t : State} (h : exec i s = .next t) : SameConfiguration s t := by
  have hx := of_execute i s
  rcases exec_eq_next_cases h with ⟨-, rfl⟩ | ⟨-, hok | ⟨e, u, hraise, rfl⟩⟩
  · exact of_halt s
  · rwa [hok] at hx
  · rw [hraise] at hx
    exact hx.trans (of_enterError u e)

theorem of_step {s t : State} (h : step s = .next t) : SameConfiguration s t := by
  obtain ⟨-, ⟨e, s1, hf, rfl⟩ | ⟨i, s1, s2, hf, hx, rfl⟩⟩ := step_eq_next_iff.1 h
  · have h1 : SameConfiguration s s1 := of_writes_at_most_fetch (fetchInstr_writes_at_most_fetch (i := .nop) (.inr hf))
    exact h1.trans ((of_enterError s1 e).trans (of_releaseLatches _))
  · have h1 : SameConfiguration s s1 := of_writes_at_most_fetch (fetchInstr_writes_at_most_fetch (e := .outOfBounds) (.inl hf))
    exact h1.trans ((of_exec hx).trans (of_releaseLatches s2))

end SameConfiguration

/-- Settles O48: fetch writes `pc` and the latches only, pushes and pops keep a stack's capacity, and no other write of a step
reaches a construction argument or `loaded`. -/
theorem configurationNeverChanges : Obligations.ConfigurationNeverChanges :=
  fun _ _ h => SameConfiguration.of_step h

end Sys2Proof.Machine

/-! PROOFS. The two stacks are separate storage, construction, and the phases in which the engine takes nothing more. -/

namespace Sys2Proof.Machine

/-- Settles O11: a push or pop that succeeds replaces the stack it names. -/
theorem stacksDoNotAlias : Obligations.StacksDoNotAlias := by
  unfold Obligations.StacksDoNotAlias
  intro s t v
  refine ⟨fun h => ?_, fun h => ?_, fun h => ?_, fun h => ?_⟩
  · obtain ⟨b, -, rfl⟩ := push_eq_ok_iff.1 h
    exact State.setStack_operand_rs s b
  · obtain ⟨b, -, rfl⟩ := pop_eq_ok_iff.1 h
    exact State.setStack_operand_rs s b
  · obtain ⟨b, -, rfl⟩ := push_eq_ok_iff.1 h
    exact State.setStack_ret_os s b
  · obtain ⟨b, -, rfl⟩ := pop_eq_ok_iff.1 h
    exact State.setStack_ret_os s b

/-- The engine holds the construction arguments it was given (00_scope.md R7). -/
@[simp] theorem State.construct_cfg (c : Config) (fillO fillR : Nat → Word) : (State.construct c fillO fillR).cfg = c := by
  simp [State.cfg, State.construct]

/-- Settles O42: each value is written by construction; the capacities are those of the created stacks. -/
theorem constructionLeavesTheResetValues : Obligations.ConstructionLeavesTheResetValues := by
  unfold Obligations.ConstructionLeavesTheResetValues
  rintro c fillO fillR s rfl
  exact ⟨rfl, rfl, rfl, rfl, rfl, rfl, rfl, rfl, rfl, rfl, rfl, State.construct_cfg c fillO fillR⟩

theorem step_of_stepGate {s : State} {f : Fault} (h : stepGate s.status = some f) : step s = .fault f := by
  rw [step, h]

theorem startRun_of_not_idle {s : State} (h : s.status ≠ .idle) : startRun s = .refused .runNotIdle := if_pos h

theorem loadProgram_of_not_idle {s : State} (h : s.status ≠ .idle) (ws : List Word) :
    loadProgram ws s = .refused .loadNotIdle := if_pos h

/-- Settles O52: the gate of `step` answers a fault outside Running, and loads and starts need Idle. -/
theorem noStepOutsideRunning : Obligations.NoStepOutsideRunning := by
  unfold Obligations.NoStepOutsideRunning
  refine fun s ws => ⟨fun h => ?_, fun h => ?_, fun h => ?_⟩
  · exact step_of_stepGate (by rw [h]; rfl)
  · have hidle : s.status ≠ .idle := by simp [h]
    exact ⟨step_of_stepGate (by rw [h]; rfl), startRun_of_not_idle hidle, loadProgram_of_not_idle hidle ws⟩
  · have hidle : s.status ≠ .idle := by simp [h]
    exact ⟨step_of_stepGate (by rw [h]; rfl), startRun_of_not_idle hidle, loadProgram_of_not_idle hidle ws⟩

end Sys2Proof.Machine

/-! PROOFS. What the fetch half of a step answers, read off what the decoder answers for the Words at `pc`. -/

namespace Sys2Proof

/-! ### Every answer of the decoder -/

/-- The decoder's rejections: no Word, a Word that is no opcode, or an arity-1 opcode with no Word after it. -/
theorem decode_error_cases {opc : OpcodeMap} {ws : List Word} {d : DecodeError} (h : decode opc ws = .error d) :
    (d = .noOpcode ∧ ws = []) ∨
    (∃ op rest, d = .unknownOpcode ∧ ws = op :: rest ∧ opcodeOf opc op = none) ∨
    (∃ op m, d = .noOperand ∧ ws = [op] ∧ opcodeOf opc op = some m ∧ m.arity = 1) := by
  cases ws with
  | nil =>
    cases h
    exact .inl ⟨rfl, rfl⟩
  | cons op rest =>
    cases hm : opcodeOf opc op with
    | none =>
      simp only [decode, hm] at h
      cases h
      exact .inr (.inl ⟨op, rest, rfl, rfl, hm⟩)
    | some m =>
      cases ha : assemble m (rest.take m.arity) with
      | none =>
        simp only [decode, hm, ha] at h
        cases h
        have hlen : (rest.take m.arity).length ≠ m.arity := assemble_eq_none_iff.1 ha
        have hle : m.arity ≤ 1 := by cases m <;> decide
        rw [List.length_take] at hlen
        have hrest : rest = [] := List.length_eq_zero_iff.1 (by omega)
        exact .inr (.inr ⟨op, m, rfl, by rw [hrest], hm, by omega⟩)
      | some i => simp [decode, hm, ha] at h

/-- Words that decode are the opcode the decoder found, the immediates and the Words left over. -/
theorem decode_ok_words {opc : OpcodeMap} {ws rest : List Word} {i : Instr} (h : decode opc ws = .ok (i, rest)) :
    ws = opc.code i.mnemonic :: (i.params ++ rest) ∧ opcodeOf opc (opc.code i.mnemonic) = some i.mnemonic := by
  cases ws with
  | nil => cases h
  | cons op tail =>
    cases hm : opcodeOf opc op with
    | none => simp [decode, hm] at h
    | some m =>
      cases ha : assemble m (tail.take m.arity) with
      | none => simp [decode, hm, ha] at h
      | some j =>
        simp only [decode, hm, ha, Except.ok.injEq, Prod.mk.injEq] at h
        obtain ⟨rfl, rfl⟩ := h
        obtain ⟨rfl, hparams⟩ := assemble_eq_some_iff.1 ha
        rw [code_of_opcodeOf hm, hparams, List.take_append_drop]
        exact ⟨rfl, hm⟩

end Sys2Proof

namespace Sys2Proof.Machine

/-! ### The Words at `pc` -/

theorem Inv.progLen_le {s : State} (h : Inv s) : s.progLen ≤ 2147483647 := by
  have hcap : s.progCap ≤ 2147483647 := by
    have hc := h.cfgLegal
    simp only [Config.wf, Bool.and_eq_true, decide_eq_true_eq] at hc
    exact hc.1.2
  exact (Memory.wf_iff.1 h.progFits).trans hcap

/-- Together with the Words still to come, `pc` counts to the program's end. -/
theorem Inv.pc_add_length_upcoming {s : State} (h : Inv s) : s.pc.toInt + s.upcoming.length = s.progLen := by
  have h0 := h.pcLow
  have h1 := h.pcHigh
  rw [State.progLen] at *
  rw [State.upcoming, List.length_drop]
  omega

theorem fetch_of_upcoming_nil {s : State} (h : s.upcoming = []) : fetch s = .raise .outOfBounds s := by
  have hlen : s.prog.length ≤ s.pc.toInt.toNat := List.drop_eq_nil_iff.1 h
  exact fetch_eq_raise_iff.2 ⟨by rw [State.progLen]; omega, rfl, rfl⟩

theorem fetch_of_upcoming_cons {s : State} {w : Word} {ws : List Word} (h0 : 0 ≤ s.pc.toInt) (h : s.upcoming = w :: ws) :
    fetch s = .ok w (s.setPc (s.pc + 1#32)) := by
  have hw : s.upcoming[0]? = some w := by rw [h]; rfl
  rw [State.upcoming, List.getElem?_drop] at hw
  exact fetch_eq_ok_iff.2 ⟨⟨h0, hw⟩, rfl⟩

/-- In a program that fits, an address before a Word still to come advances without wrapping. -/
theorem toInt_pc_succ {s : State} {w : Word} {ws : List Word} (h0 : 0 ≤ s.pc.toInt) (hL : s.progLen ≤ 2147483647)
    (h : s.upcoming = w :: ws) : (s.pc + 1#32).toInt = s.pc.toInt + 1 := by
  have hlen := congrArg List.length h
  rw [State.upcoming, List.length_drop, List.length_cons] at hlen
  rw [State.progLen] at hL
  exact toInt_add_ofNat h0 (by omega)

/-- A Fetch takes the first of the Words at `pc`. -/
theorem upcoming_setPc_succ {s : State} {w : Word} {ws : List Word} (h0 : 0 ≤ s.pc.toInt) (hL : s.progLen ≤ 2147483647)
    (h : s.upcoming = w :: ws) : (s.setPc (s.pc + 1#32)).upcoming = ws := by
  have hnat : (s.pc + 1#32).toInt.toNat = s.pc.toInt.toNat + 1 := by rw [toInt_pc_succ h0 hL h]; omega
  have htail : s.upcoming.tail = ws := by rw [h]; rfl
  rw [State.upcoming, List.tail_drop] at htail
  rw [State.upcoming, State.setPc_pc, State.setPc_prog, hnat, htail]

/-- LoadParams reads the Words at `pc` that are there. -/
theorem loadParams_of_upcoming {ps rest : List Word} {s : State} (h0 : 0 ≤ s.pc.toInt) (hL : s.progLen ≤ 2147483647)
    (h : s.upcoming = ps ++ rest) : loadParams ps.length s = .ok ps (s.setPc (s.pc + BitVec.ofNat 32 ps.length)) := by
  induction ps generalizing s with
  | nil =>
    rw [List.length_nil, loadParams_zero, BitVec.add_zero]
    rfl
  | cons w ws ih =>
    have hpc := toInt_pc_succ h0 hL h
    have hrest := ih (s := s.setPc (s.pc + 1#32)) (by rw [State.setPc_pc]; omega) hL (upcoming_setPc_succ h0 hL h)
    have hsum : s.pc + 1#32 + BitVec.ofNat 32 ws.length = s.pc + BitVec.ofNat 32 (w :: ws).length := by
      rw [BitVec.add_assoc, ← BitVec.ofNat_add, List.length_cons, Nat.add_comm]
    rw [State.setPc_pc, hsum] at hrest
    rw [List.length_cons, loadParams, fetch_of_upcoming_cons h0 h, Result.bind_ok, hrest]
    rfl

/-! ### The fetch half of a step -/

/-- Words that decode are fetched as what they decode to. -/
theorem fetchInstr_of_decode_ok {s : State} {i : Instr} {rest : List Word} (hs : Inv s)
    (h : decode s.opc s.upcoming = .ok (i, rest)) : fetchInstr s = .ok i (s.fetched i) := by
  obtain ⟨hwords, hop⟩ := decode_ok_words h
  have hpc := toInt_pc_succ hs.pcLow hs.progLen_le hwords
  have hpc0 : 0 ≤ (s.pc + 1#32).toInt := by
    have := hs.pcLow
    omega
  have hload := loadParams_of_upcoming (s := (s.setPc (s.pc + 1#32)).latchOp (s.opc.code i.mnemonic)) hpc0 hs.progLen_le
    (upcoming_setPc_succ hs.pcLow hs.progLen_le hwords)
  have hasm : assemble i.mnemonic i.params = some i := assemble_eq_some_iff.2 ⟨rfl, rfl⟩
  have hsum : s.pc + 1#32 + BitVec.ofNat 32 i.params.length = s.pc + BitVec.ofNat 32 (1 + i.params.length) := by
    rw [BitVec.add_assoc, ← BitVec.ofNat_add]
  rw [State.latchOp_pc, State.setPc_pc, hsum] at hload
  simp only [fetchInstr, fetch_of_upcoming_cons hs.pcLow hwords, Result.bind_ok, hop, ← Instr.length_params, hload, hasm]
  rfl

/-- Words that the decoder rejects raise its rejection: at `pc` when there is no Word, and past the opcode otherwise. -/
theorem fetchInstr_of_decode_error {s : State} {d : DecodeError} (hs : Inv s) (h : decode s.opc s.upcoming = .error d) :
    (d = .noOpcode ∧ s.upcoming = [] ∧ fetchInstr s = .raise .outOfBounds s) ∨
    (∃ op rest, (d = .unknownOpcode ∨ d = .noOperand ∧ rest = []) ∧ s.upcoming = op :: rest ∧
      fetchInstr s = .raise (.ofDecodeError d) ((s.setPc (s.pc + 1#32)).latchOp op)) := by
  rcases decode_error_cases h with ⟨rfl, hw⟩ | ⟨op, rest, rfl, hw, hop⟩ | ⟨op, m, rfl, hw, hop, hm⟩
  · refine .inl ⟨rfl, hw, ?_⟩
    rw [fetchInstr, fetch_of_upcoming_nil hw, Result.bind_raise]
  · refine .inr ⟨op, rest, .inl rfl, hw, ?_⟩
    simp only [fetchInstr, fetch_of_upcoming_cons hs.pcLow hw, Result.bind_ok, hop]
    rfl
  · refine .inr ⟨op, [], .inr ⟨rfl, rfl⟩, hw, ?_⟩
    have hnil : ((s.setPc (s.pc + 1#32)).latchOp op).upcoming = [] := upcoming_setPc_succ hs.pcLow hs.progLen_le hw
    simp only [fetchInstr, fetch_of_upcoming_cons hs.pcLow hw, Result.bind_ok, hop, hm, loadParams_one,
      fetch_of_upcoming_nil hnil, Result.bind_raise]
    rfl

/-- The execute half starts past the instruction's Words, which lie inside the program. -/
theorem toInt_pc_fetched {s : State} {i : Instr} {rest : List Word} (hs : Inv s)
    (h : decode s.opc s.upcoming = .ok (i, rest)) :
    (s.fetched i).pc.toInt = s.pc.toInt + (1 + i.params.length : Nat) ∧ (s.fetched i).pc.toInt ≤ s.progLen := by
  obtain ⟨hwords, -⟩ := decode_ok_words h
  have hL := hs.progLen_le
  have hlen := hs.pc_add_length_upcoming
  rw [hwords, List.length_cons, List.length_append] at hlen
  have hpc : (s.fetched i).pc.toInt = s.pc.toInt + (1 + i.params.length : Nat) := by
    rw [State.fetched, State.latchImm_pc]
    exact toInt_add_ofNat hs.pcLow (by omega)
  exact ⟨hpc, by omega⟩

end Sys2Proof.Machine

/-! PROOFS. A step of an engine that has the invariant: every way it can end, and that the invariant holds after it. -/

namespace Sys2Proof.Machine

/-! ### The ways a step can end -/

/-- All that a step from a state with the invariant can do: enter the error of Words that do not decode, halt, or end as the
Execute arm of the decoded instruction ends. -/
theorem step_cases {s t : State} (hs : Inv s) (h : step s = .next t) :
    s.status = .running ∧
    ((∃ d u, decode s.opc s.upcoming = .error d ∧ fetchInstr s = .raise (.ofDecodeError d) u ∧
        t = (u.enterError (.ofDecodeError d)).releaseLatches) ∨
     (∃ rest, decode s.opc s.upcoming = .ok (.halt, rest) ∧ t = (s.fetched .halt).halt.releaseLatches) ∨
     (∃ i rest, decode s.opc s.upcoming = .ok (i, rest) ∧ i ≠ .halt ∧
       ((∃ u, execute i (s.fetched i) = .ok () u ∧ t = u.releaseLatches) ∨
        (∃ e u, execute i (s.fetched i) = .raise e u ∧ t = (u.enterError e).releaseLatches)))) := by
  obtain ⟨hrun, hends⟩ := step_eq_next_iff.1 h
  refine ⟨hrun, ?_⟩
  cases hd : decode s.opc s.upcoming with
  | error d =>
    obtain ⟨u, hf⟩ : ∃ u, fetchInstr s = .raise (.ofDecodeError d) u := by
      rcases fetchInstr_of_decode_error hs hd with ⟨rfl, -, hf⟩ | ⟨op, rest, -, -, hf⟩
      · exact ⟨_, hf⟩
      · exact ⟨_, hf⟩
    rcases hends with ⟨e, s1, hf', rfl⟩ | ⟨i, s1, s2, hf', -, -⟩
    · rw [hf] at hf'
      cases hf'
      exact .inl ⟨d, u, rfl, hf, rfl⟩
    · rw [hf] at hf'
      cases hf'
  | ok r =>
    obtain ⟨i, rest⟩ := r
    have hf := fetchInstr_of_decode_ok hs hd
    rcases hends with ⟨e, s1, hf', -⟩ | ⟨j, s1, s2, hf', hx, rfl⟩
    · rw [hf] at hf'
      cases hf'
    · rw [hf] at hf'
      cases hf'
      rcases exec_eq_next_cases hx with ⟨rfl, rfl⟩ | ⟨hi, hok | ⟨e, u, hraise, rfl⟩⟩
      · exact .inr (.inl ⟨rest, rfl, rfl⟩)
      · exact .inr (.inr ⟨i, rest, rfl, hi, .inl ⟨s2, hok, rfl⟩⟩)
      · exact .inr (.inr ⟨i, rest, rfl, hi, .inr ⟨e, u, hraise, rfl⟩⟩)

/-- No Execute arm writes `status` (41_engine_cycle.md R71). -/
theorem execute_state_status (i : Instr) (s : State) : (execute i s).state.status = s.status := by
  obtain ⟨b, c, p, o, h⟩ := execute_writes_at_most_data i s
  rw [h]

/-! ### The invariant across each write -/

namespace Inv

variable {s : State}

theorem setPc (h : Inv s) {v : Word} (hv : 0 ≤ v.toInt ∧ v.toInt ≤ s.progLen) : Inv (s.setPc v) :=
  { h with pcLow := hv.1, pcHigh := hv.2 }

theorem outWrite (h : Inv s) (v : Word) : Inv (s.outWrite v) := { h with }

theorem latchOp (h : Inv s) (w : Word) : Inv (s.latchOp w) := { h with }

theorem releaseLatches (h : Inv s) : Inv s.releaseLatches := { h with }

theorem setOperandStack (h : Inv s) {b : BoundedStack} (hcap : b.cap = s.os.cap) (hwf : b.wf = true) :
    Inv (s.setStack .operand b) :=
  { h with
    cfgLegal := (SameConfiguration.of_setStack (n := .operand) hcap).1 ▸ h.cfgLegal
    osWf := hwf }

theorem setReturnStack (h : Inv s) {b : BoundedStack} (hcap : b.cap = s.rs.cap) (hwf : b.wf = true)
    (haddr : ∀ v ∈ b.content, 2 ≤ v.toInt ∧ v.toInt ≤ s.progLen) : Inv (s.setStack .ret b) :=
  { h with
    cfgLegal := (SameConfiguration.of_setStack (n := .ret) hcap).1 ▸ h.cfgLegal
    rsWf := hwf
    rsReturnAddresses := haddr }

/-- Error entry sets `status` and the latch together (10_state.md R24). -/
theorem enterError (h : Inv s) {e : ErrorKind} (hloaded : s.loaded = true) (he : e.isRunError = true) :
    Inv (s.enterError e) :=
  { h with
    startedLoaded := fun _ => hloaded
    errIff := by simp
    errRun := fun e' h' => by
      cases h'
      exact he }

theorem err_eq_none (h : Inv s) (hs : s.status ≠ .errored) : s.err = none := by
  by_contra hne
  exact hs (h.errIff.1 hne)

/-- `status` may move between the phases without an error when a program is loaded. -/
theorem setStatus (h : Inv s) {p : Status} (hloaded : s.loaded = true) (hs : s.status ≠ .errored) (hp : p ≠ .errored) :
    Inv { s with status := p } :=
  { h with
    startedLoaded := fun _ => hloaded
    errIff := by simp [h.err_eq_none hs, hp] }

theorem loaded_of_running (h : Inv s) (hrun : s.status = .running) : s.loaded = true :=
  h.startedLoaded (by simp [hrun])

/-- The state in which the execute half starts has the invariant (10_state.md R21: `pc` goes up to `L` at most). -/
theorem fetched (h : Inv s) {i : Instr} {rest : List Word} (hd : decode s.opc s.upcoming = .ok (i, rest)) :
    Inv (s.fetched i) := by
  obtain ⟨hpc, hle⟩ := toInt_pc_fetched h hd
  have h0 := h.pcLow
  rw [State.fetched, State.latchImm_pc] at hpc hle
  have hadvanced := (h.setPc ⟨by omega, hle⟩).latchOp (s.opc.code i.mnemonic)
  cases i with
  | push imm | jz imm | jnz imm | call imm => exact { hadvanced with }
  | halt | nop | print | pop | add | jmp | ret => exact hadvanced

end Inv

/-! ### The invariant across the Execute arms -/

/-- The kinds an Execute arm can raise (60_exceptions.md R94): a stack error or a failed Jump. -/
def ErrorKind.OfExecute (e : ErrorKind) : Prop := e = .stackOverflow ∨ e = .stackUnderflow ∨ e = .jumpOutOfBounds

theorem ErrorKind.OfExecute.isRunError {e : ErrorKind} (h : e.OfExecute) : e.isRunError = true := by
  rcases h with rfl | rfl | rfl <;> rfl

/-- The result holds a state with the invariant, and a raise is of a kind that Execute raises. -/
def Result.Sound {α : Type} : Result α → Prop
  | .ok _ t => Inv t
  | .raise e t => Inv t ∧ e.OfExecute

namespace Result.Sound

variable {s : State}

theorem bind {α β : Type} {r : Result α} {f : α → State → Result β} (hr : r.Sound)
    (hf : ∀ a t, Inv t → (f a t).Sound) : (r.bind f).Sound := by
  cases r with
  | ok a t => exact hf a t hr
  | raise e t => exact hr

theorem popOperand (h : Inv s) : (popOperand s).Sound := by
  rcases pop_cases .operand s with ⟨v, b, hp, e⟩ | ⟨-, e⟩ <;> rw [Machine.popOperand, e]
  · exact h.setOperandStack (BoundedStack.cap_pop hp) (BoundedStack.wf_pop h.osWf hp)
  · exact ⟨h, .inr (.inl rfl)⟩

theorem pushOperand (h : Inv s) (v : Word) : (pushOperand v s).Sound := by
  rcases push_cases .operand v s with ⟨b, hp, e⟩ | ⟨-, e⟩ <;> rw [Machine.pushOperand, e]
  · exact h.setOperandStack (BoundedStack.cap_push hp) (BoundedStack.wf_push h.osWf hp)
  · exact ⟨h, .inl rfl⟩

theorem popReturn (h : Inv s) : (popReturn s).Sound := by
  rcases pop_cases .ret s with ⟨v, b, hp, e⟩ | ⟨-, e⟩ <;> rw [Machine.popReturn, e]
  · refine h.setReturnStack (BoundedStack.cap_pop hp) (BoundedStack.wf_pop h.rsWf hp) fun a ha => ?_
    refine h.rsReturnAddresses a ?_
    rw [← State.stack_ret, BoundedStack.content_pop hp]
    exact List.mem_append_left _ ha
  · exact ⟨h, .inr (.inl rfl)⟩

/-- What goes on `rs` has to be a return address (10_state.md R30). -/
theorem pushReturn (h : Inv s) {v : Word} (hv : 2 ≤ v.toInt ∧ v.toInt ≤ s.progLen) : (pushReturn v s).Sound := by
  rcases push_cases .ret v s with ⟨b, hp, e⟩ | ⟨-, e⟩ <;> rw [Machine.pushReturn, e]
  · refine h.setReturnStack (BoundedStack.cap_push hp) (BoundedStack.wf_push h.rsWf hp) fun a ha => ?_
    rw [BoundedStack.content_push h.rsWf hp, List.mem_append, List.mem_singleton] at ha
    rcases ha with ha | rfl
    · exact h.rsReturnAddresses a ha
    · exact hv
  · exact ⟨h, .inl rfl⟩

theorem jump (h : Inv s) (a : Word) : (jump a s).Sound := by
  rcases jump_cases a s with ⟨⟨h0, hlt⟩, e⟩ | ⟨-, e⟩ <;> rw [e]
  · exact h.setPc ⟨h0, hlt.le⟩
  · exact ⟨h, .inr (.inr rfl)⟩

/-- An Execute arm keeps the invariant, whichever way it ends; CALL does where its link is past two Words. -/
theorem execute (h : Inv s) {i : Instr} (hcall : ∀ imm, i = .call imm → 2 ≤ s.pc.toInt) : (execute i s).Sound := by
  cases i with
  | halt | nop => exact h
  | print => exact (popOperand h).bind fun v t ht => ht.outWrite v
  | push imm => exact pushOperand h imm
  | pop => exact (popOperand h).bind fun _ t ht => ht
  | add => exact (popOperand h).bind fun a t ht => (popOperand ht).bind fun b u hu => pushOperand hu _
  | jmp => exact (popOperand h).bind fun a t ht => jump ht a
  | jz imm =>
    refine (popOperand h).bind fun v t ht => ?_
    cases isZero v
    · exact ht
    · exact jump ht imm
  | jnz imm =>
    refine (popOperand h).bind fun v t ht => ?_
    cases isZero v
    · exact jump ht imm
    · exact ht
  | call imm => exact (pushReturn h ⟨hcall imm rfl, h.pcHigh⟩).bind fun _ t ht => jump ht imm
  | ret => exact (popReturn h).bind fun a t ht => jump ht a

/-- In a step an Execute arm starts past its instruction's Words, so CALL's link is in [2, `L`] (10_state.md R30). -/
theorem execute_fetched (h : Inv s) {i : Instr} {rest : List Word} (hd : decode s.opc s.upcoming = .ok (i, rest)) :
    (Machine.execute i (s.fetched i)).Sound := by
  refine execute (h.fetched hd) fun imm hi => ?_
  have h0 := h.pcLow
  have hpc := (toInt_pc_fetched h hd).1
  rw [hi] at hpc ⊢
  simp only [Instr.params, List.length_singleton] at hpc
  omega

end Result.Sound

/-! ### The invariant across a step -/

/-- A fetch that raises keeps the invariant: it has advanced past a Word of the program, or not at all. -/
theorem Inv.of_fetchInstr_raise {s u : State} {d : DecodeError} (hs : Inv s) (hd : decode s.opc s.upcoming = .error d)
    (hf : fetchInstr s = .raise (.ofDecodeError d) u) : Inv u ∧ (ErrorKind.ofDecodeError d).isRunError = true := by
  rcases fetchInstr_of_decode_error hs hd with ⟨rfl, -, hf'⟩ | ⟨op, rest, hkind, hw, hf'⟩ <;>
    rw [hf] at hf' <;> cases hf'
  · exact ⟨hs, rfl⟩
  · have h0 := hs.pcLow
    have hpc := toInt_pc_succ h0 hs.progLen_le hw
    have hlen := hs.pc_add_length_upcoming
    rw [hw, List.length_cons] at hlen
    refine ⟨(hs.setPc ⟨by omega, by omega⟩).latchOp op, ?_⟩
    rcases hkind with rfl | ⟨rfl, -⟩ <;> rfl

/-- Settles O44: a step enters a fetch error, halts, or runs the decoded instruction's Execute arm, and each of these keeps the
invariant. -/
theorem stepKeepsTheInvariant : Obligations.StepKeepsTheInvariant := by
  unfold Obligations.StepKeepsTheInvariant
  intro s t hs h
  obtain ⟨hrun, hends⟩ := step_cases hs h
  have hloaded := hs.loaded_of_running hrun
  rcases hends with ⟨d, u, hd, hf, rfl⟩ | ⟨rest, hd, rfl⟩ | ⟨i, rest, hd, -, ⟨u, hx, rfl⟩ | ⟨e, u, hx, rfl⟩⟩
  case inl =>
    obtain ⟨hu, he⟩ := hs.of_fetchInstr_raise hd hf
    have hsame := SameConfiguration.of_writes_at_most_fetch (fetchInstr_writes_at_most_fetch (i := .nop) (.inr hf))
    exact (hu.enterError (hsame.2.trans hloaded) he).releaseLatches
  case inr.inl => exact ((hs.fetched hd).setStatus hloaded (by simp [State.fetched, hrun]) (by simp)).releaseLatches
  case inr.inr.inl =>
    have hsound := Result.Sound.execute_fetched hs hd
    rw [hx] at hsound
    exact Inv.releaseLatches hsound
  case inr.inr.inr =>
    have hsound := Result.Sound.execute_fetched hs hd
    have hsame := SameConfiguration.of_execute i (s.fetched i)
    rw [hx] at hsound hsame
    obtain ⟨hu, he⟩ := hsound
    exact (hu.enterError (hsame.2.trans (by simp [State.fetched, hloaded])) he.isRunError).releaseLatches

/-! ### The invariant of every reachable state -/

/-- Legal construction arguments give an engine with the invariant. -/
theorem Inv.of_construct {c : Config} (fillO fillR : Nat → Word) (hc : c.wf = true) : Inv (State.construct c fillO fillR) where
  cfgLegal := by rwa [State.construct_cfg]
  progFits := Memory.wf_iff.2 (Nat.zero_le _)
  loadedIff := by simp [State.construct, State.progLen]
  pcLow := by simp [State.construct]
  pcHigh := by simp [State.construct, State.progLen]
  osWf := BoundedStack.wf_create ..
  rsWf := BoundedStack.wf_create ..
  rsReturnAddresses := by simp [State.construct]
  startedLoaded := fun h => absurd rfl h
  errIff := by simp [State.construct]
  errRun := by simp [State.construct]

/-- Settles O43: construction leaves `pc` 0, both stacks empty and nothing loaded, and the reference's arguments are legal. -/
theorem constructionHasTheInvariant : Obligations.ConstructionHasTheInvariant :=
  ⟨fun _ fillO fillR hc => .of_construct fillO fillR hc, .of_construct _ _ (by decide)⟩

/-- Before a load `L` is 0, so that `rs` can hold no return address; a load only makes `L` larger. -/
theorem Inv.of_loadProgram {s t : State} {ws : List Word} {answer : Option ErrorKind} (hs : Inv s)
    (h : loadProgram ws s = .next (answer, t)) : Inv t := by
  obtain ⟨hidle, hloaded, hfits, ⟨-, -, rfl⟩ | ⟨hne, -, rfl⟩⟩ := loadProgram_cases h
  · exact hs
  · have hzero : s.progLen = 0 := by
      have hiff := hs.loadedIff
      rw [hloaded] at hiff
      by_contra hpos
      exact absurd (hiff.2 (by omega)) (by decide)
    have hpos : 1 ≤ ws.length := List.length_pos_iff.2 hne
    have hpc := hs.pcHigh
    exact { hs with
      progFits := Memory.wf_iff.2 hfits
      loadedIff := ⟨fun _ => hpos, fun _ => rfl⟩
      pcHigh := by
        rw [State.progLen]
        simp only
        omega
      rsReturnAddresses := fun v hv => by
        have := hs.rsReturnAddresses v hv
        omega
      startedLoaded := fun _ => rfl }

theorem Inv.of_startRun {s t : State} (hs : Inv s) (h : startRun s = .next t) : Inv t := by
  obtain ⟨hidle, hloaded, rfl⟩ := startRun_cases h
  exact hs.setStatus hloaded (by simp [hidle]) (by simp)

/-- Settles O46: construction has the invariant, and a load, a start and a step keep it. -/
theorem reachableStatesHaveTheInvariant : Obligations.ReachableStatesHaveTheInvariant := by
  unfold Obligations.ReachableStatesHaveTheInvariant
  intro s hs
  induction hs with
  | construct c fillO fillR hc => exact .of_construct fillO fillR hc
  | load _ h ih => exact ih.of_loadProgram h
  | start _ h ih => exact ih.of_startRun h
  | step _ h ih => exact stepKeepsTheInvariant _ _ ih h

end Sys2Proof.Machine

/-! PROOFS. What a step leaves in `status`, `out` and `pc`. -/

namespace Sys2Proof.Machine

theorem BoundedStack.getLast?_content_of_pop {b b' : BoundedStack} {v : Word} (h : b.pop = some (v, b')) :
    b.content.getLast? = some v := by
  rw [content_pop h, List.getLast?_concat]

/-! ### `status` -/

/-- Settles O54: only a fetched HALT writes Halted, error entry writes Errored, and the invariant ties the latch to it. -/
theorem statusAfterAStep : Obligations.StatusAfterAStep := by
  unfold Obligations.StatusAfterAStep
  intro s t hs h
  have ht : Inv t := stepKeepsTheInvariant s t hs h
  have hlatched : t.status = .errored → ∃ e, t.err = some e ∧ e.isRunError = true := fun hst => by
    obtain ⟨e, he⟩ := Option.ne_none_iff_exists'.1 (ht.errIff.2 hst)
    exact ⟨e, he, ht.errRun e he⟩
  obtain ⟨hrun, ⟨d, u, hd, -, rfl⟩ | ⟨rest, hd, rfl⟩ | ⟨i, rest, hd, hi, ⟨u, hx, rfl⟩ | ⟨e, u, -, rfl⟩⟩⟩ := step_cases hs h
  case inl =>
    exact ⟨by simp [hd], .inr (.inr ⟨rfl, hlatched rfl⟩)⟩
  case inr.inl =>
    exact ⟨⟨fun _ => ⟨rest, hd⟩, fun _ => rfl⟩, .inr (.inl ⟨rfl, ht.err_eq_none (by simp)⟩)⟩
  case inr.inr.inl =>
    have hst : u.status = .running := by
      have := execute_state_status i (s.fetched i)
      rw [hx] at this
      simpa [Result.state, State.fetched, hrun] using this
    exact ⟨by simp [hd, hst, hi], .inl ⟨hst, ht.err_eq_none (by simp [hst])⟩⟩
  case inr.inr.inr =>
    exact ⟨by simp [hd, hi], .inr (.inr ⟨rfl, hlatched rfl⟩)⟩

/-! ### `out` -/

/-- Every Execute arm but PRINT's leaves `out` as it was, whichever way it ends (10_state.md R33). -/
theorem execute_state_out {i : Instr} (hi : i ≠ .print) (s : State) : (execute i s).state.out = s.out := by
  cases i with
  | print => exact absurd rfl hi
  | halt | nop => rfl
  | push imm => rcases executePush_cases imm s with ⟨b, -, e⟩ | ⟨-, e⟩ <;> rw [e] <;> rfl
  | pop => rcases executePop_cases s with ⟨v, b, -, e⟩ | ⟨-, e⟩ <;> rw [e] <;> rfl
  | add =>
    rcases executeAdd_cases s with ⟨a, b, b1, b2, b3, -, -, -, e⟩ | ⟨-, e⟩ | ⟨a, b1, -, -, e⟩ | ⟨a, b, b1, b2, -, -, -, e⟩ <;>
      rw [e] <;> rfl
  | jmp => rcases executeJmp_cases s with ⟨a, b, -, -, e⟩ | ⟨-, e⟩ | ⟨a, b, -, -, e⟩ <;> rw [e] <;> rfl
  | jz imm =>
    rcases executeJz_cases imm s with ⟨b, -, -, e⟩ | ⟨v, b, -, -, e⟩ | ⟨-, e⟩ | ⟨b, -, -, e⟩ <;> rw [e] <;> rfl
  | jnz imm =>
    rcases executeJnz_cases imm s with ⟨v, b, -, -, -, e⟩ | ⟨b, -, e⟩ | ⟨-, e⟩ | ⟨v, b, -, -, -, e⟩ <;> rw [e] <;> rfl
  | call imm => rcases executeCall_cases imm s with ⟨b, -, -, e⟩ | ⟨-, e⟩ | ⟨b, -, -, e⟩ <;> rw [e] <;> rfl
  | ret => rcases executeRet_cases s with ⟨a, b, -, -, e⟩ | ⟨-, e⟩ | ⟨a, b, -, -, e⟩ <;> rw [e] <;> rfl

/-- PRINT appends the last Word of the content to `out`, and nothing when there is none (43_stack_io.md R82). -/
theorem executePrint_state_out (s : State) (hwf : s.os.wf = true) :
    (execute .print s).state.out = s.out ++ s.os.content.getLast?.toList := by
  rcases executePrint_cases s with ⟨v, b, hp, e⟩ | ⟨hp, e⟩ <;> rw [e]
  · rw [BoundedStack.getLast?_content_of_pop hp]
    rfl
  · have hnil : s.os.content = [] := by
      rw [← List.length_eq_zero_iff, BoundedStack.length_content hwf]
      exact (BoundedStack.pop_eq_none_iff hwf).1 hp
    rw [hnil]
    exact (List.append_nil _).symm

/-- A step over Words that decode leaves in `out` what the Execute arm left there; HALT's arm writes nothing. -/
theorem step_out_of_decode_ok {s t : State} {i : Instr} {rest : List Word} (hs : Inv s) (h : step s = .next t)
    (hd : decode s.opc s.upcoming = .ok (i, rest)) : t.out = (execute i (s.fetched i)).state.out := by
  obtain ⟨-, ⟨d, u, hd', -, -⟩ | ⟨r, hd', rfl⟩ | ⟨j, r, hd', -, ⟨u, hx, rfl⟩ | ⟨e, u, hx, rfl⟩⟩⟩ := step_cases hs h <;>
    rw [hd] at hd' <;> cases hd'
  · rfl
  · rw [hx]
    rfl
  · rw [hx]
    rfl

theorem step_out_of_decode_error {s t : State} {d : DecodeError} (hs : Inv s) (h : step s = .next t)
    (hd : decode s.opc s.upcoming = .error d) : t.out = s.out := by
  obtain ⟨-, ⟨d', u, -, hf, rfl⟩ | ⟨r, hd', -⟩ | ⟨j, r, hd', -, -⟩⟩ := step_cases hs h
  · obtain ⟨p, o, m, rfl⟩ := fetchInstr_writes_at_most_fetch (i := .nop) (.inr hf)
    rfl
  · rw [hd] at hd'
    cases hd'
  · rw [hd] at hd'
    cases hd'

/-- Settles O51: PRINT's Execute arm is the only one that writes `out`, and it appends what it pops. -/
theorem onlyPrintWritesTheOutput : Obligations.OnlyPrintWritesTheOutput := by
  unfold Obligations.OnlyPrintWritesTheOutput
  intro s t hs h
  have hprint : ∀ rest, decode s.opc s.upcoming = .ok (.print, rest) → t.out = s.out ++ s.os.content.getLast?.toList :=
    fun rest hd => (step_out_of_decode_ok hs h hd).trans (executePrint_state_out _ hs.osWf)
  refine ⟨fun rest v hd hv => by rw [hprint rest hd, hv]; rfl, fun hquiet => ?_⟩
  cases hd : decode s.opc s.upcoming with
  | error d => exact step_out_of_decode_error hs h hd
  | ok r =>
    obtain ⟨i, rest⟩ := r
    by_cases hi : i = .print
    · subst hi
      rcases hquiet with hno | hempty
      · exact absurd hd (hno rest)
      · rw [hprint rest hd, hempty]
        exact List.append_nil _
    · rw [step_out_of_decode_ok hs h hd, execute_state_out hi]
      simp [State.fetched]

/-! ### `pc` -/

/-- What an Execute arm that raises nothing leaves in `pc`, and CALL in `rs` (10_state.md R20, 45_control.md). -/
def PcAfterExecute (i : Instr) (s t : State) : Prop :=
  match i with
  | .halt | .nop | .print | .push _ | .pop | .add => t.pc = s.pc
  | .jmp => s.os.content.getLast? = some t.pc
  | .jz imm => ∃ v, s.os.content.getLast? = some v ∧ t.pc = if v = 0#32 then imm else s.pc
  | .jnz imm => ∃ v, s.os.content.getLast? = some v ∧ t.pc = if v = 0#32 then s.pc else imm
  | .call imm => t.pc = imm ∧ t.rs.content = s.rs.content ++ [s.pc]
  | .ret => s.rs.content.getLast? = some t.pc

theorem pcAfterExecute_of_execute_ok {i : Instr} {s t : State} (hwf : s.rs.wf = true) (h : execute i s = .ok () t) :
    PcAfterExecute i s t := by
  cases i with
  | halt | nop =>
    cases h
    rfl
  | print =>
    rcases executePrint_cases s with ⟨v, b, -, e⟩ | ⟨-, e⟩ <;> rw [e] at h <;> cases h
    rfl
  | push imm =>
    rcases executePush_cases imm s with ⟨b, -, e⟩ | ⟨-, e⟩ <;> rw [e] at h <;> cases h
    rfl
  | pop =>
    rcases executePop_cases s with ⟨v, b, -, e⟩ | ⟨-, e⟩ <;> rw [e] at h <;> cases h
    rfl
  | add =>
    rcases executeAdd_cases s with ⟨a, b, b1, b2, b3, -, -, -, e⟩ | ⟨-, e⟩ | ⟨a, b1, -, -, e⟩ | ⟨a, b, b1, b2, -, -, -, e⟩ <;>
      rw [e] at h <;> cases h
    rfl
  | jmp =>
    rcases executeJmp_cases s with ⟨a, b, hp, -, e⟩ | ⟨-, e⟩ | ⟨a, b, -, -, e⟩ <;> rw [e] at h <;> cases h
    exact BoundedStack.getLast?_content_of_pop hp
  | jz imm =>
    rcases executeJz_cases imm s with ⟨b, hp, -, e⟩ | ⟨v, b, hp, hv, e⟩ | ⟨-, e⟩ | ⟨b, -, -, e⟩ <;> rw [e] at h <;> cases h
    · exact ⟨0#32, BoundedStack.getLast?_content_of_pop hp, rfl⟩
    · exact ⟨v, BoundedStack.getLast?_content_of_pop hp, (if_neg hv).symm⟩
  | jnz imm =>
    rcases executeJnz_cases imm s with ⟨v, b, hp, hv, -, e⟩ | ⟨b, hp, e⟩ | ⟨-, e⟩ | ⟨v, b, -, -, -, e⟩ <;>
      rw [e] at h <;> cases h
    · exact ⟨v, BoundedStack.getLast?_content_of_pop hp, (if_neg hv).symm⟩
    · exact ⟨0#32, BoundedStack.getLast?_content_of_pop hp, rfl⟩
  | call imm =>
    rcases executeCall_cases imm s with ⟨b, hp, -, e⟩ | ⟨-, e⟩ | ⟨b, -, -, e⟩ <;> rw [e] at h <;> cases h
    exact ⟨rfl, BoundedStack.content_push hwf hp⟩
  | ret =>
    rcases executeRet_cases s with ⟨a, b, hp, -, e⟩ | ⟨-, e⟩ | ⟨a, b, -, -, e⟩ <;> rw [e] at h <;> cases h
    exact BoundedStack.getLast?_content_of_pop hp

/-- The same of a whole step over Words that decode, counted from the state in which the execute half starts. -/
theorem pcAfterExecute_of_step {s t : State} {i : Instr} {rest : List Word} (hs : Inv s) (h : step s = .next t)
    (hd : decode s.opc s.upcoming = .ok (i, rest)) (hne : t.status ≠ .errored) : PcAfterExecute i (s.fetched i) t := by
  obtain ⟨-, ⟨d, u, hd', -, -⟩ | ⟨r, hd', rfl⟩ | ⟨j, r, hd', -, ⟨u, hx, rfl⟩ | ⟨e, u, -, rfl⟩⟩⟩ := step_cases hs h <;>
    rw [hd] at hd' <;> cases hd'
  · rfl
  · have hpc := pcAfterExecute_of_execute_ok (hs.fetched hd).rsWf hx
    cases i <;> exact hpc
  · exact absurd rfl hne

/-- Settles O55: the execute half starts with `pc` past the instruction's one or two Words, and each arm keeps it or writes its
target. -/
theorem pcAfterEachInstruction : Obligations.PcAfterEachInstruction := by
  unfold Obligations.PcAfterEachInstruction
  intro s t i rest hs hd h hne
  have hpc := pcAfterExecute_of_step hs h hd hne
  cases i <;> exact hpc

end Sys2Proof.Machine

/-! PROOFS. Noninterference: no operation sees an idle slot or a latch. Each shared operation answers alike from two states with
the same visible part, so does a sequence of them, and with it a step and a run. -/

namespace Sys2Proof.Machine

/-! ### Stacks with the same visible part -/

namespace BoundedStack

variable {b c : BoundedStack}

@[simp] theorem top_blankIdle (b : BoundedStack) : b.blankIdle.top = b.top := rfl

@[simp] theorem cap_blankIdle (b : BoundedStack) : b.blankIdle.cap = b.cap := by
  simp only [blankIdle, content, cap, List.length_append, List.length_take, List.length_replicate]
  omega

@[simp] theorem content_blankIdle (b : BoundedStack) : b.blankIdle.content = b.content := by
  rcases Nat.le_total b.top b.slot.length with h | h
  · simp [blankIdle, content, h]
  · simp [blankIdle, content, cap, List.take_of_length_le h, Nat.sub_eq_zero_of_le h]

/-- Blanked alike means the same count, capacity and content, of any stack, well-formed or not. -/
theorem blankIdle_eq_iff : b.blankIdle = c.blankIdle ↔ b.top = c.top ∧ b.cap = c.cap ∧ b.content = c.content := by
  constructor
  · intro h
    refine ⟨?_, ?_, ?_⟩
    · simpa using congrArg top h
    · simpa using congrArg cap h
    · simpa using congrArg content h
  · rintro ⟨htop, hcap, hcontent⟩
    simp [blankIdle, htop, hcap, hcontent]

/-- The slot a pop reads is part of the content. -/
theorem slot_below_top (h : b.top ≠ 0) : b.slot[b.top - 1]? = b.content[b.top - 1]? := by
  rw [content, List.getElem?_take_of_lt (by omega)]

/-- A smaller count over the same slots leaves the first Words of the content. -/
theorem content_lower (b : BoundedStack) {n : Nat} (hn : n ≤ b.top) :
    ({ b with top := n } : BoundedStack).content = b.content.take n := by
  simp [content, List.take_take, hn]

/-- The content after a store at `top`, of any stack: beyond the storage the store has no effect. -/
theorem content_store_take (b : BoundedStack) (v : Word) :
    (BoundedStack.mk (b.top + 1) (b.slot.set b.top v)).content = (b.content ++ [v]).take b.cap := by
  rcases Nat.lt_or_ge b.top b.cap with h | h
  · rw [content_store h, List.take_of_length_le]
    rw [List.length_append, length_content (wf_iff.2 h.le)]
    exact h
  · have hset : b.slot.set b.top v = b.slot := List.set_eq_of_length_le h
    rw [cap] at h
    simp [content, hset, cap, List.take_of_length_le (Nat.le_succ_of_le h), List.take_of_length_le h]

/-- A push answers alike on stacks that are blanked alike. -/
theorem push_blankIdle (h : b.blankIdle = c.blankIdle) (v : Word) :
    (b.push v).map blankIdle = (c.push v).map blankIdle := by
  obtain ⟨htop, hcap, hcontent⟩ := blankIdle_eq_iff.1 h
  by_cases hfull : b.top = b.cap
  · rw [push_eq_none_iff.2 hfull, push_eq_none_iff.2 (by omega : c.top = c.cap)]
  · rw [push_eq_some_iff.2 ⟨hfull, rfl⟩, push_eq_some_iff.2 ⟨by omega, rfl⟩]
    refine congrArg some (blankIdle_eq_iff.2 ⟨by simp [htop], ?_, ?_⟩)
    · simpa [cap] using hcap
    · rw [content_store_take, content_store_take, hcontent, hcap]

/-- A pop answers alike, with the same Word, on stacks that are blanked alike. -/
theorem pop_blankIdle (h : b.blankIdle = c.blankIdle) :
    b.pop.map (Prod.map id blankIdle) = c.pop.map (Prod.map id blankIdle) := by
  obtain ⟨htop, hcap, hcontent⟩ := blankIdle_eq_iff.1 h
  by_cases hempty : b.top = 0
  · rw [pop_of_top_zero hempty, pop_of_top_zero (htop ▸ hempty)]
  · have hread : b.slot[b.top - 1]? = c.slot[c.top - 1]? := by
      rw [slot_below_top hempty, slot_below_top (htop ▸ hempty), hcontent, htop]
    have hrest : ({ b with top := b.top - 1 } : BoundedStack).blankIdle = ({ c with top := c.top - 1 } : BoundedStack).blankIdle := by
      refine blankIdle_eq_iff.2 ⟨by simp [htop], hcap, ?_⟩
      rw [content_lower b (Nat.sub_le ..), content_lower c (Nat.sub_le ..), hcontent, htop]
    simp only [pop, if_neg hempty, if_neg (htop ▸ hempty : c.top ≠ 0), hread]
    cases c.slot[c.top - 1]? with
    | none => rfl
    | some v => exact congrArg (fun d => some (v, d)) hrest

end BoundedStack

/-! ### States with the same visible part -/

namespace State

variable {s t : State}

@[simp] theorem visible_setPc (s : State) (v : Word) : (s.setPc v).visible = s.visible.setPc v := rfl

@[simp] theorem visible_setStack (s : State) (n : StackName) (b : BoundedStack) :
    (s.setStack n b).visible = s.visible.setStack n b.blankIdle := by cases n <;> rfl

@[simp] theorem visible_outWrite (s : State) (v : Word) : (s.outWrite v).visible = s.visible.outWrite v := rfl

@[simp] theorem visible_latchOp (s : State) (w : Word) : (s.latchOp w).visible = s.visible := rfl

@[simp] theorem visible_latchImm (s : State) (ps : List Word) : (s.latchImm ps).visible = s.visible := by cases ps <;> rfl

@[simp] theorem visible_releaseLatches (s : State) : s.releaseLatches.visible = s.visible := rfl

@[simp] theorem visible_enterError (s : State) (e : ErrorKind) : (s.enterError e).visible = s.visible.enterError e := rfl

theorem visible_stack (s : State) (n : StackName) : s.visible.stack n = (s.stack n).blankIdle := by cases n <;> rfl

theorem stack_eq_of_visible (h : s.visible = t.visible) (n : StackName) : (s.stack n).blankIdle = (t.stack n).blankIdle := by
  rw [← visible_stack, ← visible_stack, h]

theorem prog_eq_of_visible (h : s.visible = t.visible) : s.prog = t.prog := (congrArg State.prog h :)

theorem pc_eq_of_visible (h : s.visible = t.visible) : s.pc = t.pc := (congrArg State.pc h :)

theorem status_eq_of_visible (h : s.visible = t.visible) : s.status = t.status := (congrArg State.status h :)

theorem opc_eq_of_visible (h : s.visible = t.visible) : s.opc = t.opc := (congrArg State.opc h :)

end State

/-! ### Operations that see the visible part only -/

/-- A result with the state it holds blanked. -/
def Result.visible {α : Type} : Result α → Result α
  | .ok a s => .ok a s.visible
  | .raise e s => .raise e s.visible

@[simp] theorem Result.visible_ok {α : Type} (a : α) (s : State) : (Result.ok a s).visible = .ok a s.visible := rfl

@[simp] theorem Result.visible_raise {α : Type} (e : ErrorKind) (s : State) :
    (Result.raise e s : Result α).visible = .raise e s.visible := rfl

/-- Results with the same visible part are the same value, or the same error, over states with the same visible part. -/
theorem Result.visible_eq_cases {α : Type} {r r' : Result α} (h : r.visible = r'.visible) :
    (∃ a s t, r = .ok a s ∧ r' = .ok a t ∧ s.visible = t.visible) ∨
    (∃ e s t, r = .raise e s ∧ r' = .raise e t ∧ s.visible = t.visible) := by
  cases r with
  | ok a s =>
    cases r' with
    | ok b t =>
      obtain ⟨rfl, hst⟩ := Result.ok.inj h
      exact .inl ⟨a, s, t, rfl, rfl, hst⟩
    | raise e t => cases h
  | raise e s =>
    cases r' with
    | ok b t => cases h
    | raise e' t =>
      obtain ⟨rfl, hst⟩ := Result.raise.inj h
      exact .inr ⟨e, s, t, rfl, rfl, hst⟩

/-- The operation ends alike from states with the same visible part: with the same value or error, and again with the same
visible part. -/
def SeesVisibleOnly {α : Type} (f : State → Result α) : Prop :=
  ∀ s t : State, s.visible = t.visible → (f s).visible = (f t).visible

namespace SeesVisibleOnly

theorem ok {α : Type} (a : α) : SeesVisibleOnly (Result.ok a) := fun _ _ h => congrArg (Result.ok a) h

theorem raise {α : Type} (e : ErrorKind) : SeesVisibleOnly (Result.raise e : State → Result α) :=
  fun _ _ h => congrArg (Result.raise e) h

theorem bind {α β : Type} {f : State → Result α} {g : α → State → Result β} (hf : SeesVisibleOnly f)
    (hg : ∀ a, SeesVisibleOnly (g a)) : SeesVisibleOnly fun s => (f s).bind g := by
  intro s t h
  change ((f s).bind g).visible = ((f t).bind g).visible
  rcases Result.visible_eq_cases (hf s t h) with ⟨a, s1, t1, hs, ht, h1⟩ | ⟨e, s1, t1, hs, ht, h1⟩ <;> rw [hs, ht]
  · exact hg a s1 t1 h1
  · exact raise e s1 t1 h1

theorem push (n : StackName) (v : Word) : SeesVisibleOnly (push n v) := by
  intro s t h
  have hb := BoundedStack.push_blankIdle (State.stack_eq_of_visible h n) v
  rcases push_cases n v s with ⟨b, hs, e⟩ | ⟨hs, e⟩ <;> rcases push_cases n v t with ⟨c, ht, e'⟩ | ⟨ht, e'⟩ <;>
    rw [hs, ht] at hb <;> rw [e, e']
  · rw [Result.visible_ok, Result.visible_ok, State.visible_setStack, State.visible_setStack, h, Option.some.inj hb]
  · cases hb
  · cases hb
  · exact raise _ s t h

theorem pop (n : StackName) : SeesVisibleOnly (pop n) := by
  intro s t h
  have hb := BoundedStack.pop_blankIdle (State.stack_eq_of_visible h n)
  rcases pop_cases n s with ⟨v, b, hs, e⟩ | ⟨hs, e⟩ <;> rcases pop_cases n t with ⟨w, c, ht, e'⟩ | ⟨ht, e'⟩ <;>
    rw [hs, ht] at hb <;> rw [e, e']
  · obtain ⟨hv, hbc⟩ := Prod.mk.inj (Option.some.inj hb)
    rw [Result.visible_ok, Result.visible_ok, State.visible_setStack, State.visible_setStack, h, hbc]
    exact congrArg (Result.ok · _) hv
  · cases hb
  · cases hb
  · exact raise _ s t h

/-- `L` and `pc` are visible. -/
theorem jump (a : Word) : SeesVisibleOnly (jump a) := by
  intro s t h
  have hL : s.progLen = t.progLen := congrArg List.length (State.prog_eq_of_visible h)
  simp only [Machine.jump, hL]
  split
  · simp [h]
  · simp [h]

theorem fetch : SeesVisibleOnly fetch := by
  intro s t h
  simp only [Machine.fetch, State.prog_eq_of_visible h, State.pc_eq_of_visible h]
  cases t.prog.read t.pc with
  | none => simp [h]
  | some w => simp [h]

theorem loadParams (n : Nat) : SeesVisibleOnly (loadParams n) := by
  induction n with
  | zero => exact ok []
  | succ n ih => exact fetch.bind fun w => ih.bind fun ws => ok (w :: ws)

/-- An operation that writes a latch first. -/
theorem after_latchOp {α : Type} {f : State → Result α} (hf : SeesVisibleOnly f) (w : Word) :
    SeesVisibleOnly fun s => f (s.latchOp w) := fun _ _ h => hf _ _ (by simpa using h)

theorem after_latchImm {α : Type} {f : State → Result α} (hf : SeesVisibleOnly f) (ps : List Word) :
    SeesVisibleOnly fun s => f (s.latchImm ps) := fun _ _ h => hf _ _ (by simpa using h)

/-- The fetch half of a step reads program memory, `pc` and the opcode map. -/
theorem fetchInstr : SeesVisibleOnly fetchInstr := by
  intro s t h
  unfold Machine.fetchInstr
  rw [State.opc_eq_of_visible h]
  refine fetch.bind (fun op => ?_) s t h
  cases opcodeOf t.opc op with
  | none => exact (raise _).after_latchOp op
  | some m =>
    refine ((loadParams m.arity).after_latchOp op).bind fun params => ?_
    cases assemble m params with
    | none => exact (raise _).after_latchImm params
    | some i => exact (ok i).after_latchImm params

/-- The Execute arms, each a sequence of shared operations. -/
theorem execute (i : Instr) : SeesVisibleOnly (execute i) := by
  cases i with
  | halt | nop => exact ok ()
  | print => exact (pop .operand).bind fun v s t h => by simp [h]
  | push imm => exact push .operand imm
  | pop => exact (pop .operand).bind fun _ => ok ()
  | add => exact (pop .operand).bind fun a => (pop .operand).bind fun b => push .operand (aluAdd a b)
  | jmp => exact (pop .operand).bind jump
  | jz imm =>
    refine (pop .operand).bind fun v => ?_
    cases isZero v
    · exact ok ()
    · exact jump imm
  | jnz imm =>
    refine (pop .operand).bind fun v => ?_
    cases isZero v
    · exact jump imm
    · exact ok ()
  | call imm =>
    have hlink : SeesVisibleOnly fun s => pushReturn s.pc s := fun s t h => by
      have hpc : Machine.push .ret s.pc t = pushReturn t.pc t := by rw [State.pc_eq_of_visible h, pushReturn]
      exact (SeesVisibleOnly.push .ret s.pc s t h).trans (congrArg Result.visible hpc)
    exact hlink.bind fun _ => jump imm
  | ret => exact (pop .ret).bind jump

end SeesVisibleOnly

/-! ### A step -/

theorem mapNext_visible_settle (r : Result Unit) : mapNext State.visible (settle r) = settle r.visible := by
  cases r <;> rfl

theorem mapNext_visible_releaseLatches (o : Host.Outcome State Fault Refusal) :
    mapNext State.visible (mapNext State.releaseLatches o) = mapNext State.visible o := by
  cases o <;> rfl

theorem mapNext_visible_exec {s t : State} (i : Instr) (h : s.visible = t.visible) :
    mapNext State.visible (exec i s) = mapNext State.visible (exec i t) := by
  by_cases hi : i = .halt
  · subst hi
    exact congrArg (fun u => Host.Outcome.next (State.halt u)) h
  · rw [exec_eq_settle hi, exec_eq_settle hi, mapNext_visible_settle, mapNext_visible_settle, SeesVisibleOnly.execute i s t h]

/-- Settles O49: the fetch half and the Execute arms see the visible part only, and the release of the latches is not visible. -/
theorem stepDoesNotSeeHiddenState : Obligations.StepDoesNotSeeHiddenState := by
  unfold Obligations.StepDoesNotSeeHiddenState
  intro s t h
  simp only [step, State.status_eq_of_visible h]
  cases stepGate t.status with
  | some f => rfl
  | none =>
    rcases Result.visible_eq_cases (SeesVisibleOnly.fetchInstr s t h) with
      ⟨i, s1, t1, hs, ht, h1⟩ | ⟨e, s1, t1, hs, ht, h1⟩ <;> simp only [hs, ht]
    · rw [mapNext_visible_releaseLatches, mapNext_visible_releaseLatches, mapNext_visible_exec i h1]
    · simp [h1]

/-! ### A run -/

/-- A Running engine always steps: every arm of `exec` ends in a next state, and so does a raise of the fetch half. -/
theorem step_completes {s : State} (hrun : s.status = .running) : ∃ t, step s = .next t := by
  cases hf : fetchInstr s with
  | ok i s1 =>
    obtain ⟨s2, hx⟩ := exec_completes i s1
    exact ⟨_, step_eq_next_iff.2 ⟨hrun, .inr ⟨i, s1, s2, hf, hx, rfl⟩⟩⟩
  | raise e s1 => exact ⟨_, step_eq_next_iff.2 ⟨hrun, .inl ⟨e, s1, hf, rfl⟩⟩⟩

/-- The loop of Run goes on from the state after a step. -/
theorem runFor_succ_of_step {s t : State} (h : step s = .next t) (fuel : Nat) : runFor (fuel + 1) s = runFor fuel t := by
  rw [runFor, if_pos (step_eq_next_iff.1 h).1, h]

/-- Settles O50, by induction on the fuel: each step keeps the visible parts equal, `status` among them, so that both loops go on
or both end. -/
theorem runDoesNotSeeHiddenState : Obligations.RunDoesNotSeeHiddenState := by
  unfold Obligations.RunDoesNotSeeHiddenState
  intro fuel
  induction fuel with
  | zero => exact fun s t h => congrArg Host.Outcome.next h
  | succ fuel ih =>
    intro s t h
    have hstatus := State.status_eq_of_visible h
    by_cases hrun : s.status = .running
    · obtain ⟨s', hs'⟩ := step_completes hrun
      obtain ⟨t', ht'⟩ := step_completes (hstatus ▸ hrun)
      have hstep := stepDoesNotSeeHiddenState s t h
      rw [hs', ht'] at hstep
      rw [runFor_succ_of_step hs', runFor_succ_of_step ht']
      exact ih s' t' (Host.Outcome.next.inj hstep)
    · rw [runFor_of_not_running hrun, runFor_of_not_running (hstatus ▸ hrun)]
      exact congrArg Host.Outcome.next h

end Sys2Proof.Machine

/-! PROOFS. The program image: `imageWords` and `encodeImage` are inverse to each other on the byte strings of whole Words. -/

namespace Sys2Proof

/-! ### The four bytes of a Word -/

theorem bytesOfWord_wordOfBytes (b0 b1 b2 b3 : Byte) : bytesOfWord (wordOfBytes b0 b1 b2 b3) = [b0, b1, b2, b3] := by
  have h0 : (wordOfBytes b0 b1 b2 b3).extractLsb' 24 8 = b0 :=
    (BitVec.extractLsb'_append_eq_of_le (by decide)).trans <|
      (BitVec.extractLsb'_append_eq_of_le (by decide)).trans BitVec.extractLsb'_append_eq_left
  have h1 : (wordOfBytes b0 b1 b2 b3).extractLsb' 16 8 = b1 :=
    (BitVec.extractLsb'_append_eq_of_le (by decide)).trans <|
      (BitVec.extractLsb'_append_eq_of_le (by decide)).trans BitVec.extractLsb'_append_eq_right
  have h2 : (wordOfBytes b0 b1 b2 b3).extractLsb' 8 8 = b2 :=
    (BitVec.extractLsb'_append_eq_of_le (by decide)).trans BitVec.extractLsb'_append_eq_right
  have h3 : (wordOfBytes b0 b1 b2 b3).extractLsb' 0 8 = b3 := BitVec.extractLsb'_append_eq_right
  rw [bytesOfWord, h0, h1, h2, h3]

/-- Adjacent byte fields of a Word join to a wider field, up to the whole Word. -/
theorem wordOfBytes_extractLsb' (w : Word) :
    wordOfBytes (w.extractLsb' 24 8) (w.extractLsb' 16 8) (w.extractLsb' 8 8) (w.extractLsb' 0 8) = w := by
  rw [wordOfBytes, BitVec.extractLsb'_append_extractLsb'_eq_extractLsb' (start₂ := 24) rfl,
    BitVec.extractLsb'_append_extractLsb'_eq_extractLsb' (start₂ := 16) rfl,
    BitVec.extractLsb'_append_extractLsb'_eq_extractLsb' (start₂ := 8) rfl]
  exact BitVec.extractLsb'_eq_self

/-! ### Encoding an image -/

@[simp] theorem encodeImage_nil : encodeImage [] = [] := rfl

@[simp] theorem encodeImage_cons (w : Word) (ws : List Word) : encodeImage (w :: ws) = bytesOfWord w ++ encodeImage ws := rfl

@[simp] theorem length_bytesOfWord (w : Word) : (bytesOfWord w).length = 4 := rfl

theorem length_encodeImage (ws : List Word) : (encodeImage ws).length = 4 * ws.length := by
  induction ws with
  | nil => rfl
  | cons w ws ih =>
    simp only [encodeImage_cons, List.length_append, length_bytesOfWord, ih, List.length_cons]
    omega

/-- The bytes of Word `k` stand at 4k to 4k+3 (20_memory.md R39). -/
theorem getElem?_encodeImage {ws : List Word} {k : Nat} {w : Word} (h : ws[k]? = some w) {j : Nat} (hj : j < 4) :
    (encodeImage ws)[4 * k + j]? = (bytesOfWord w)[j]? := by
  induction ws generalizing k with
  | nil => cases h
  | cons u ws ih =>
    rw [encodeImage_cons]
    cases k with
    | zero =>
      cases h
      rw [Nat.mul_zero, Nat.zero_add, List.getElem?_append_left (by simpa using hj)]
    | succ k =>
      rw [List.getElem?_append_right (by simp only [length_bytesOfWord]; omega), ← ih h, length_bytesOfWord]
      congr 1
      omega

/-! ### Decoding an image -/

theorem imageWords_encodeImage (ws : List Word) : imageWords (encodeImage ws) = some ws := by
  induction ws with
  | nil => rfl
  | cons w ws ih => simp [bytesOfWord, imageWords, ih, wordOfBytes_extractLsb']

/-- A byte string of whole Words is the image of some Words, by the recursion of `imageWords`. -/
theorem exists_encodeImage_eq {image : List Byte} (h : image.length % 4 = 0) : ∃ ws, encodeImage ws = image := by
  induction image using imageWords.induct with
  | case1 => exact ⟨[], rfl⟩
  | case2 b0 b1 b2 b3 rest ih =>
    obtain ⟨ws, rfl⟩ := ih (by rwa [← Nat.add_mod_right rest.length 4])
    exact ⟨wordOfBytes b0 b1 b2 b3 :: ws, by simp [bytesOfWord_wordOfBytes]⟩
  | case3 image hnil hfour =>
    rcases image with _ | ⟨b0, _ | ⟨b1, _ | ⟨b2, _ | ⟨b3, rest⟩⟩⟩⟩
    · exact absurd rfl hnil
    · cases h
    · cases h
    · cases h
    · exact absurd rfl (hfour b0 b1 b2 b3 rest)

theorem encodeImage_of_imageWords {image : List Byte} {ws : List Word} (h : imageWords image = some ws) :
    encodeImage ws = image := by
  induction image using imageWords.induct generalizing ws with
  | case1 =>
    cases h
    rfl
  | case2 b0 b1 b2 b3 rest ih =>
    obtain ⟨ws', hrest, rfl⟩ := Option.map_eq_some_iff.1 h
    rw [encodeImage_cons, bytesOfWord_wordOfBytes, ih hrest]
    rfl
  | case3 image hnil hfour =>
    rw [imageWords.eq_3 _ hnil hfour] at h
    cases h

/-- What DecodeImage answers: the Words of which the image is the encoding, if there are any. -/
theorem decodeImage_eq_ok_iff {image : List Byte} {ws : List Word} :
    decodeImage image = .ok ws ↔ ws ≠ [] ∧ encodeImage ws = image := by
  constructor
  · intro h
    unfold decodeImage at h
    split at h
    case h_1 w ws' hw =>
      cases h
      exact ⟨List.cons_ne_nil w ws', encodeImage_of_imageWords hw⟩
    case h_2 => cases h
  · rintro ⟨hne, rfl⟩
    obtain ⟨w, ws', rfl⟩ := List.exists_cons_of_ne_nil hne
    rw [decodeImage, imageWords_encodeImage]

/-- Every rejection of DecodeImage is MalformedEncoding. -/
theorem decodeImage_cases (image : List Byte) :
    (∃ ws, decodeImage image = .ok ws) ∨ decodeImage image = .error .malformedEncoding := by
  unfold decodeImage
  split
  · exact .inl ⟨_, rfl⟩
  · exact .inr rfl

/-- An image is malformed when it holds no Words or a partial one (20_memory.md R39). -/
theorem decodeImage_of_malformed {image : List Byte} (h : image.length = 0 ∨ image.length % 4 ≠ 0) :
    decodeImage image = .error .malformedEncoding := by
  rcases decodeImage_cases image with ⟨ws, hok⟩ | herr
  · obtain ⟨hne, rfl⟩ := decodeImage_eq_ok_iff.1 hok
    have hpos : 0 < ws.length := List.length_pos_iff.2 hne
    rw [length_encodeImage] at h
    omega
  · exact herr

/-- Settles O5: an image of whole Words is the encoding of the Words it decodes to, and that puts Word `k` at byte 4k. -/
theorem imageDecodesBigEndianWords : Obligations.ImageDecodesBigEndianWords := by
  unfold Obligations.ImageDecodesBigEndianWords
  refine fun image => ⟨decodeImage_of_malformed, fun h => ?_⟩
  rw [not_or, not_not] at h
  obtain ⟨hpos, hwhole⟩ := h
  obtain ⟨ws, rfl⟩ := exists_encodeImage_eq hwhole
  have hlen := length_encodeImage ws
  have hne : ws ≠ [] := fun h0 => hpos (by rw [h0]; rfl)
  refine ⟨ws, decodeImage_eq_ok_iff.2 ⟨hne, rfl⟩, by omega, fun k w hw => ⟨?_, ?_, ?_, ?_⟩⟩
  · exact getElem?_encodeImage hw (j := 0) (by decide)
  · exact getElem?_encodeImage hw (j := 1) (by decide)
  · exact getElem?_encodeImage hw (j := 2) (by decide)
  · exact getElem?_encodeImage hw (j := 3) (by decide)

/-- Settles O6: DecodeImage answers exactly the Words of which the image is the encoding. -/
theorem imageRoundTrip : Obligations.ImageRoundTrip :=
  ⟨fun _ hne => decodeImage_eq_ok_iff.2 ⟨hne, rfl⟩, fun _ _ h => (decodeImage_eq_ok_iff.1 h).2⟩

end Sys2Proof

/-! PROOFS. LoadProgram, case by case, and what program memory holds after it, after the start of a run and after a step. -/

namespace Sys2Proof.Machine

theorem programWf_iff {progCap : Nat} {ws : List Word} :
    programWf progCap ws = true ↔ 1 ≤ ws.length ∧ ws.length ≤ progCap := by
  simp [programWf]

/-! ### LoadProgram -/

theorem loadProgram_of_loaded {s : State} (hidle : s.status = .idle) (h : s.loaded = true) (ws : List Word) :
    loadProgram ws s = .refused .reload := by
  simp [loadProgram, hidle, h]

section Unloaded

variable {s : State} (hidle : s.status = .idle) (hloaded : s.loaded = false)

include hidle hloaded

theorem loadProgram_of_too_long {ws : List Word} (h : s.progCap < ws.length) :
    loadProgram ws s = .refused .programTooLong := by
  simp [loadProgram, hidle, hloaded, Memory.wf, h]

theorem loadProgram_nil : loadProgram [] s = .next (some .emptyProgram, s) := by
  simp [loadProgram, hidle, hloaded, Memory.wf]

theorem loadProgram_of_programWf {ws : List Word} (h : programWf s.progCap ws = true) :
    loadProgram ws s = .next (none, { s with prog := ws, loaded := true }) := by
  obtain ⟨hpos, hfits⟩ := programWf_iff.1 h
  obtain ⟨w, ws', rfl⟩ := List.exists_cons_of_length_pos hpos
  simp [loadProgram, hidle, hloaded, Memory.wf_iff.2 hfits]

end Unloaded

theorem loadImage_of_malformed {image : List Byte} (h : image.length = 0 ∨ image.length % 4 ≠ 0) (s : State) :
    loadImage image s = .next (some .malformedEncoding, s) := by
  rw [loadImage, decodeImage_of_malformed h]
  rfl

theorem loadImage_of_decodeImage_ok {image : List Byte} {ws : List Word} (h : decodeImage image = .ok ws) (s : State) :
    loadImage image s = loadProgram ws s := by
  rw [loadImage, h]

/-- Settles O58: each clause is one case of LoadProgram, or of the load path from an image. -/
theorem loadProgramCopiesOnce : Obligations.LoadProgramCopiesOnce := by
  unfold Obligations.LoadProgramCopiesOnce
  intro s ws image
  refine ⟨fun hidle hloaded hwf => ⟨_, loadProgram_of_programWf hidle hloaded hwf, rfl, rfl, fun _ _ => rfl⟩,
    fun hidle hloaded hnil => ?_, fun h => loadProgram_of_not_idle h ws, fun hidle h => loadProgram_of_loaded hidle h ws,
    fun hidle hloaded h => loadProgram_of_too_long hidle hloaded h, fun h => loadImage_of_malformed h s,
    fun h => loadImage_of_decodeImage_ok h s⟩
  rw [hnil]
  exact loadProgram_nil hidle hloaded

/-- Settles O45: a load and the start of a run each keep the invariant. -/
theorem hostRequestsKeepTheInvariant : Obligations.HostRequestsKeepTheInvariant :=
  fun _ _ _ _ hs => ⟨hs.of_loadProgram, hs.of_startRun⟩

/-! ### Program memory -/

theorem WritesAtMostData.prog_eq {s t : State} (h : WritesAtMostData s t) : t.prog = s.prog := by
  obtain ⟨b, c, p, o, rfl⟩ := h
  rfl

theorem WritesAtMostFetch.prog_eq {s t : State} (h : WritesAtMostFetch s t) : t.prog = s.prog := by
  obtain ⟨p, o, m, rfl⟩ := h
  rfl

/-- The execute half of a step stores to no program address (20_memory.md R37). -/
theorem exec_prog {i : Instr} {s t : State} (h : exec i s = .next t) : t.prog = s.prog := by
  have hx := (execute_writes_at_most_data i s).prog_eq
  rcases exec_eq_next_cases h with ⟨-, rfl⟩ | ⟨-, hok | ⟨e, u, hraise, rfl⟩⟩
  · exact State.halt_prog s
  · rwa [hok] at hx
  · rw [hraise] at hx
    rwa [State.enterError_prog]

theorem step_prog {s t : State} (h : step s = .next t) : t.prog = s.prog := by
  obtain ⟨-, ⟨e, s1, hf, rfl⟩ | ⟨i, s1, s2, hf, hx, rfl⟩⟩ := step_eq_next_iff.1 h
  · rw [State.releaseLatches_prog, State.enterError_prog]
    exact (fetchInstr_writes_at_most_fetch (i := .nop) (.inr hf)).prog_eq
  · rw [State.releaseLatches_prog, exec_prog hx]
    exact (fetchInstr_writes_at_most_fetch (e := .outOfBounds) (.inl hf)).prog_eq

theorem startRun_prog {s t : State} (h : startRun s = .next t) : t.prog = s.prog := by
  obtain ⟨-, -, rfl⟩ := startRun_cases h
  rfl

theorem loadProgram_prog {s t : State} {ws : List Word} {answer : Option ErrorKind}
    (h : loadProgram ws s = .next (answer, t)) : t.prog = s.prog ∨ t.prog = ws := by
  obtain ⟨-, -, -, ⟨-, -, rfl⟩ | ⟨-, -, rfl⟩⟩ := loadProgram_cases h
  · exact .inl rfl
  · exact .inr rfl

/-- Settles O47: the fetch half writes `pc` and the latches, the execute half the stacks, `pc`, `out` and the phase. -/
theorem programMemoryIsReadOnly : Obligations.ProgramMemoryIsReadOnly := by
  unfold Obligations.ProgramMemoryIsReadOnly
  refine fun s t ws answer => ⟨fun h => ?_, startRun_prog, loadProgram_prog⟩
  have hprog := step_prog h
  exact ⟨hprog, congrArg List.length hprog, fun a => by rw [hprog]⟩

end Sys2Proof.Machine

/-! PROOFS. The decoder and the encoder are inverse to each other (30_encoding.md R53 to R58). -/

namespace Sys2Proof

/-- An encoding decodes: distinct opcodes give the mnemonic back, its arity splits the immediates from the Words after them, and
they assemble to the instruction. -/
theorem decode_encode {opc : OpcodeMap} (h : opc.wf = true) (i : Instr) (rest : List Word) :
    decode opc (encode opc i ++ rest) = .ok (i, rest) := by
  have hop : opcodeOf opc (opc.code i.mnemonic) = some i.mnemonic := opcodeOf_code h i.mnemonic
  have htake : (i.params ++ rest).take i.mnemonic.arity = i.params := List.take_left' i.length_params
  have hdrop : (i.params ++ rest).drop i.mnemonic.arity = rest := List.drop_left' i.length_params
  have hasm : assemble i.mnemonic i.params = some i := assemble_eq_some_iff.2 ⟨rfl, rfl⟩
  simp only [encode, List.cons_append, decode, hop, htake, hdrop, hasm]

/-- Settles O1: it is the round trip from the encoder's side. -/
theorem decodeOfEncodeIsTheInstruction : Obligations.DecodeOfEncodeIsTheInstruction :=
  fun _ i rest h => decode_encode h i rest

/-- Settles O2: the Words the decoder consumed are the opcode it found and the immediates it took. -/
theorem encodeOfDecodeIsTheWords : Obligations.EncodeOfDecodeIsTheWords :=
  fun _ _ _ _ h => (decode_ok_words h).1

/-- Settles O3: the decided opcodes are distinct, so the encodings decode, and 11 is none of them. -/
theorem decidedWordsDecode : Obligations.DecidedWordsDecode := by
  unfold Obligations.DecidedWordsDecode
  have hwf : OpcodeMap.decided.wf = true := by decide
  exact ⟨decode_encode hwf (.push 65#32) [], decode_encode hwf (.jz (-1#32)) [], decode_encode hwf .print [],
    decode_encode hwf .halt [], decode_encode hwf .add [], decode_encode hwf (.call 3#32) [], decode_encode hwf .ret [],
    by decide⟩

end Sys2Proof

/-! PROOFS. The bounded-stack controller: one push and one pop in the engine, sequences of them on one stack, and the capacities. -/

namespace Sys2Proof.Machine

/-! ### One push, one pop -/

theorem push_of_full {n : StackName} {s : State} (h : (s.stack n).top = (s.stack n).cap) (v : Word) :
    push n v s = .raise .stackOverflow s :=
  push_eq_raise_iff.2 ⟨BoundedStack.push_eq_none_iff.2 h, rfl, rfl⟩

theorem push_of_not_full {n : StackName} {s : State} (h : (s.stack n).top ≠ (s.stack n).cap) (v : Word) :
    push n v s = .ok () (s.setStack n { top := (s.stack n).top + 1, slot := (s.stack n).slot.set (s.stack n).top v }) :=
  push_eq_ok_iff.2 ⟨_, BoundedStack.push_eq_some_iff.2 ⟨h, rfl⟩, rfl⟩

theorem pop_of_empty {n : StackName} {s : State} (h : (s.stack n).top = 0) : pop n s = .raise .stackUnderflow s :=
  pop_eq_raise_iff.2 ⟨BoundedStack.pop_of_top_zero h, rfl, rfl⟩

/-- The count bound puts the new `top` inside the storage, so there is a Word to return. -/
theorem pop_of_not_empty {n : StackName} {s : State} (hwf : (s.stack n).wf = true) (h : (s.stack n).top ≠ 0) :
    ∃ v, (s.stack n).slot[(s.stack n).top - 1]? = some v ∧
      pop n s = .ok v (s.setStack n { s.stack n with top := (s.stack n).top - 1 }) := by
  rcases pop_cases n s with ⟨v, b, hb, hpop⟩ | ⟨hnone, -⟩
  · obtain ⟨-, hv, rfl⟩ := BoundedStack.pop_eq_some_iff.1 hb
    exact ⟨v, hv, hpop⟩
  · exact absurd ((BoundedStack.pop_eq_none_iff hwf).1 hnone) h

/-- Settles O7: on either stack the push is decided by whether `top` has reached the capacity. -/
theorem pushStoresAtTheTop : Obligations.PushStoresAtTheTop := by
  unfold Obligations.PushStoresAtTheTop
  intro n v s
  refine ⟨fun h => push_of_full h v, fun h => ?_⟩
  cases n with
  | operand | ret => exact push_of_not_full h v

/-- Settles O8: on either stack the pop is decided by whether `top` is 0, and it lowers `top` over slots it keeps. -/
theorem popReturnsTheTop : Obligations.PopReturnsTheTop := by
  unfold Obligations.PopReturnsTheTop
  intro n s hwf
  refine ⟨pop_of_empty, fun h => ?_⟩
  cases n with
  | operand | ret => exact pop_of_not_empty hwf h

/-! ### Sequences of pushes and pops -/

theorem pushAll_cons_of_push {b b1 : BoundedStack} {v : Word} (h : b.push v = some b1) (vs : List Word) :
    pushAll (v :: vs) b = pushAll vs b1 := by
  rw [pushAll, h]

theorem popMany_succ_of_pop {b b1 b2 : BoundedStack} {v : Word} {n : Nat} {vs : List Word} (h : b.pop = some (v, b1))
    (hn : popMany n b1 = some (vs, b2)) : popMany (n + 1) b = some (v :: vs, b2) := by
  simp only [popMany, h, hn]

/-- Pushes that fit all succeed and append to the content (40_stack_controller.md R65). -/
theorem pushAll_of_fits {vs : List Word} {b : BoundedStack} (hb : b.wf = true) (hfits : b.top + vs.length ≤ b.cap) :
    ∃ b', pushAll vs b = some b' ∧ b'.wf = true ∧ b'.cap = b.cap ∧ b'.content = b.content ++ vs := by
  induction vs generalizing b with
  | nil => exact ⟨b, rfl, hb, rfl, (List.append_nil _).symm⟩
  | cons v vs ih =>
    rw [List.length_cons] at hfits
    have hpush : b.push v = some { top := b.top + 1, slot := b.slot.set b.top v } :=
      BoundedStack.push_eq_some_iff.2 ⟨by omega, rfl⟩
    have hcap := BoundedStack.cap_push hpush
    obtain ⟨b', hall, hwf, hcap', hcontent⟩ := ih (BoundedStack.wf_push hb hpush) (by rw [hcap]; simp only; omega)
    refine ⟨b', (pushAll_cons_of_push hpush vs).trans hall, hwf, hcap'.trans hcap, ?_⟩
    rw [hcontent, BoundedStack.content_push hb hpush, List.append_assoc, List.singleton_append]

/-- As many pops as the content has Words at its end return them, last first, and leave the Words before them
(40_stack_controller.md R65). The induction takes the Words from the end, as the pops do. -/
theorem popMany_of_content {rest vs : List Word} {b : BoundedStack} (hb : b.wf = true) (hcontent : b.content = rest ++ vs) :
    ∃ b', popMany vs.length b = some (vs.reverse, b') ∧ b'.wf = true ∧ b'.cap = b.cap ∧ b'.content = rest := by
  induction vs using List.reverseRecOn generalizing b with
  | nil => exact ⟨b, rfl, hb, rfl, hcontent.trans (List.append_nil rest)⟩
  | append_singleton vs v ih =>
    obtain ⟨hpop, hlower⟩ := BoundedStack.pop_of_content hb (hcontent.trans (List.append_assoc ..).symm)
    obtain ⟨b', hmany, hwf, hcap, hrest⟩ := ih (BoundedStack.wf_pop hb hpop) hlower
    refine ⟨b', ?_, hwf, hcap.trans (BoundedStack.cap_pop hpop), hrest⟩
    rw [List.length_append, List.reverse_concat]
    exact popMany_succ_of_pop hpop hmany

/-- `c` pushes fill a new stack of capacity `c` (40_stack_controller.md R65). -/
theorem pushAll_create {c : Nat} {vs : List Word} (fill : Nat → Word) (hlen : vs.length = c) :
    ∃ full, pushAll vs (BoundedStack.create c fill) = some full ∧ full.wf = true ∧ full.top = full.cap ∧ full.content = vs := by
  obtain ⟨full, hall, hwf, hcap, hcontent⟩ := pushAll_of_fits (vs := vs) (BoundedStack.wf_create c fill) (by simp [hlen])
  rw [BoundedStack.content_create, List.nil_append] at hcontent
  have htop : full.top = full.cap := by
    rw [← BoundedStack.length_content hwf, hcontent, hcap, BoundedStack.cap_create, hlen]
  exact ⟨full, hall, hwf, htop, hcontent⟩

/-- Settles O10: pushes append to the content and pops take its end off in reverse; a new stack that took `c` Words is full with
just these as its content, and empty again after `c` pops. -/
theorem stackLaw : Obligations.StackLaw := by
  unfold Obligations.StackLaw
  refine ⟨fun c fill vs hlen => ?_, fun _ _ => pushAll_of_fits, fun _ _ _ => popMany_of_content⟩
  obtain ⟨full, hall, hwf, htop, hcontent⟩ := pushAll_create fill hlen
  obtain ⟨empty, hmany, hwf', -, hnil⟩ := popMany_of_content (rest := []) hwf hcontent
  have hzero : empty.top = 0 := by rw [← BoundedStack.length_content hwf', hnil, List.length_nil]
  exact ⟨full, hall, fun _ => BoundedStack.push_eq_none_iff.2 htop, empty, hlen ▸ hmany, BoundedStack.pop_of_top_zero hzero⟩

/-! ### The capacities -/

/-- A stack of capacity 0 is full and empty at once (40_stack_controller.md R64). -/
theorem BoundedStack.push_pop_of_cap_zero {b : BoundedStack} (hcap : b.cap = 0) (hb : b.wf = true) (v : Word) :
    b.push v = none ∧ b.pop = none := by
  have htop : b.top = 0 := Nat.eq_zero_of_le_zero (hcap ▸ BoundedStack.wf_iff.1 hb)
  exact ⟨BoundedStack.push_eq_none_iff.2 (htop.trans hcap.symm), BoundedStack.pop_of_top_zero htop⟩

/-- Both capacities are construction arguments. -/
theorem SameConfiguration.caps_eq {s t : State} (h : SameConfiguration s t) : t.os.cap = s.os.cap ∧ t.rs.cap = s.rs.cap :=
  ⟨congrArg Config.operandCap h.1, congrArg Config.returnCap h.1⟩

theorem startRun_caps_eq {s t : State} (h : startRun s = .next t) : t.os.cap = s.os.cap ∧ t.rs.cap = s.rs.cap := by
  obtain ⟨-, -, rfl⟩ := startRun_cases h
  exact ⟨rfl, rfl⟩

theorem loadProgram_caps_eq {s t : State} {ws : List Word} {answer : Option ErrorKind}
    (h : loadProgram ws s = .next (answer, t)) : t.os.cap = s.os.cap ∧ t.rs.cap = s.rs.cap := by
  obtain ⟨-, -, -, ⟨-, -, rfl⟩ | ⟨-, -, rfl⟩⟩ := loadProgram_cases h
  · exact ⟨rfl, rfl⟩
  · exact ⟨rfl, rfl⟩

/-- Settles O9: a push replaces a slot and a pop none; steps and Execute arms keep the configuration, which holds both
capacities, and the host's requests write no stack. -/
theorem capacityNeverChanges : Obligations.CapacityNeverChanges := by
  unfold Obligations.CapacityNeverChanges
  refine ⟨BoundedStack.cap_create, fun _ v hcap hb => BoundedStack.push_pop_of_cap_zero hcap hb v, fun b b' v h => ?_,
    fun s t ws answer h => ?_, fun s t i e h => ?_⟩
  · rcases h with hpush | hpop
    · exact BoundedStack.cap_push hpush
    · exact BoundedStack.cap_pop hpop
  · rcases h with hstep | hstart | hload
    · exact (SameConfiguration.of_step hstep).caps_eq
    · exact startRun_caps_eq hstart
    · exact loadProgram_caps_eq hload
  · have hcaps := (SameConfiguration.of_execute i s).caps_eq
    rcases h with hok | hraise
    · rwa [hok] at hcaps
    · rwa [hraise] at hcaps

end Sys2Proof.Machine

/-! PROOFS. Arity (41_engine_cycle.md R68), and the direct Execute over it (R71, R72). -/

namespace Sys2Proof

theorem arity_eq_ok_iff {opc : OpcodeMap} {op : Word} {n : Nat} :
    arity opc op = .ok n ↔ ∃ m, opcodeOf opc op = some m ∧ m.arity = n := by
  unfold arity
  cases opcodeOf opc op <;> simp

theorem arity_eq_unknownOpcode_iff {opc : OpcodeMap} {op : Word} :
    arity opc op = .error .unknownOpcode ↔ opcodeOf opc op = none := by
  unfold arity
  cases opcodeOf opc op <;> simp

/-- Distinct opcodes of one arity all answer it. -/
theorem arity_of_mem_map_code {opc : OpcodeMap} (h : opc.wf = true) {ms : List Mnemonic} {n : Nat}
    (hms : ∀ m ∈ ms, m.arity = n) : ∀ w ∈ ms.map opc.code, arity opc w = .ok n :=
  List.forall_mem_map.2 fun m hm => arity_eq_ok_iff.2 ⟨m, opcodeOf_code h m, hms m hm⟩

/-- Settles O4: distinct opcodes are found as their own mnemonics, and a Word that is none of the eleven is not found. -/
theorem arityIsTotalAndStable : Obligations.ArityIsTotalAndStable := by
  unfold Obligations.ArityIsTotalAndStable
  intro opc h
  refine ⟨?_, ?_, fun w hw => arity_eq_unknownOpcode_iff.2 (opcodeOf_eq_none_iff.2 hw)⟩
  · exact arity_of_mem_map_code h (ms := [.halt, .nop, .print, .pop, .add, .jmp, .ret]) (by decide)
  · exact arity_of_mem_map_code h (ms := [.push, .jz, .jnz, .call]) (by decide)

end Sys2Proof

namespace Sys2Proof.Machine

theorem directExecute_of_unknown {s : State} {op : Word} (h : opcodeOf s.opc op = none) (params : List Word) :
    directExecute op params s = .next (.raise .unknownOpcode s) := by
  rw [directExecute, h]

theorem directExecute_of_assemble {s : State} {op : Word} {params : List Word} {m : Mnemonic} {i : Instr}
    (h : opcodeOf s.opc op = some m) (hi : assemble m params = some i) :
    directExecute op params s = .next (execute i s) := by
  simp only [directExecute, h, hi]

theorem directExecute_of_wrong_count {s : State} {op : Word} {params : List Word} {m : Mnemonic}
    (h : opcodeOf s.opc op = some m) (hlen : params.length ≠ m.arity) :
    directExecute op params s = .refused .arityMismatch := by
  simp only [directExecute, h, assemble_eq_none_iff.2 hlen]

/-- Settles O41: the direct Execute follows the opcode map and `assemble`; an arm writes data only, and a step settles it. -/
theorem directExecuteReportsToItsCaller : Obligations.DirectExecuteReportsToItsCaller := by
  unfold Obligations.DirectExecuteReportsToItsCaller
  refine ⟨fun s i hwf => ?_, fun s op params h => ?_, fun s op params n h hlen => ?_, fun s t i e h => ?_,
    fun s t i e hi => ⟨fun h => ?_, fun h => ?_⟩⟩
  · exact directExecute_of_assemble (opcodeOf_code hwf i.mnemonic) (assemble_eq_some_iff.2 ⟨rfl, rfl⟩)
  · exact directExecute_of_unknown (arity_eq_unknownOpcode_iff.1 h) params
  · obtain ⟨m, hm, rfl⟩ := arity_eq_ok_iff.1 h
    exact directExecute_of_wrong_count hm hlen
  · obtain ⟨b, c, p, o, hdata⟩ := execute_writes_at_most_data i s
    have ht : (execute i s).state = t := by
      rcases h with h | h <;> rw [h] <;> rfl
    rw [← ht, hdata]
    exact ⟨rfl, rfl⟩
  · rw [exec_eq_settle hi, h, settle_ok]
  · rw [exec_eq_settle hi, h, settle_raise, State.enterError]

end Sys2Proof.Machine

/-! PROOFS. Fetch, Jump and LoadParams (41_engine_cycle.md R67, R69, R70), and how a step follows the decoder (R73). -/

namespace Sys2Proof.Machine

/-- Settles O12: program memory has a Word exactly at the addresses in [0, `L`). -/
theorem fetchReadsAndAdvances : Obligations.FetchReadsAndAdvances := by
  unfold Obligations.FetchReadsAndAdvances
  refine fun s => ⟨fun h => fetch_eq_raise_iff.2 ⟨by omega, rfl, rfl⟩, fun h0 hL => ?_⟩
  have hlt : s.pc.toInt.toNat < s.prog.length := by
    rw [State.progLen] at hL
    omega
  have hw := List.getElem?_eq_getElem hlt
  exact ⟨_, hw, fetch_eq_ok_iff.2 ⟨⟨h0, hw⟩, rfl⟩⟩

/-- Settles O14: the bounds check decides. -/
theorem jumpSucceedsIffInBounds : Obligations.JumpSucceedsIffInBounds :=
  fun _ _ => ⟨fun h => jump_eq_ok_iff.2 ⟨h, rfl⟩, fun h => jump_eq_raise_iff.2 ⟨h, rfl, rfl⟩⟩

/-! ### LoadParams -/

/-- A Fetch that reads a Word keeps the invariant. -/
theorem Inv.setPc_succ {s : State} {w : Word} {ws : List Word} (hs : Inv s) (h : s.upcoming = w :: ws) :
    Inv (s.setPc (s.pc + 1#32)) := by
  have h0 := hs.pcLow
  have hpc := toInt_pc_succ h0 hs.progLen_le h
  have hlen := hs.pc_add_length_upcoming
  rw [h, List.length_cons] at hlen
  exact hs.setPc ⟨by omega, by omega⟩

/-- With no Word left to fetch, `pc` is the program's end. -/
theorem Inv.setPc_progLen_of_upcoming_nil {s : State} (hs : Inv s) (h : s.upcoming = []) :
    s.setPc (BitVec.ofNat 32 s.progLen) = s := by
  have hlen := hs.pc_add_length_upcoming
  rw [h, List.length_nil] at hlen
  have hpc : BitVec.ofNat 32 s.progLen = s.pc := BitVec.eq_of_toInt_eq (by
    rw [toInt_ofNat_of_le hs.progLen_le]
    omega)
  rw [hpc]
  rfl

/-- LoadParams gives the Words at `pc` when there are enough of them. -/
theorem loadParams_of_fits {n : Nat} {s : State} (hs : Inv s) (h : s.pc.toInt + n ≤ s.progLen) :
    loadParams n s = .ok (s.upcoming.take n) (s.setPc (s.pc + BitVec.ofNat 32 n)) := by
  have hlen := hs.pc_add_length_upcoming
  have htake : (s.upcoming.take n).length = n := List.length_take_of_le (by omega)
  have hload := loadParams_of_upcoming hs.pcLow hs.progLen_le (List.take_append_drop n s.upcoming).symm
  rwa [htake] at hload

/-- LoadParams of more Words than there are fetches up to the program's end, where the next Fetch raises. -/
theorem loadParams_past_end {n : Nat} {s : State} (hs : Inv s) (h : (s.progLen : Int) < s.pc.toInt + n) :
    loadParams n s = .raise .outOfBounds (s.setPc (BitVec.ofNat 32 s.progLen)) := by
  induction n generalizing s with
  | zero =>
    have := hs.pcHigh
    omega
  | succ n ih =>
    cases hw : s.upcoming with
    | nil => rw [hs.setPc_progLen_of_upcoming_nil hw, loadParams, fetch_of_upcoming_nil hw, Result.bind_raise]
    | cons w ws =>
      have hpc := toInt_pc_succ hs.pcLow hs.progLen_le hw
      have hrest := ih (hs.setPc_succ hw) (by rw [State.setPc_progLen, State.setPc_pc]; omega)
      rw [loadParams, fetch_of_upcoming_cons hs.pcLow hw, Result.bind_ok, hrest]
      rfl

/-- Settles O13: the recursion is the model's own, and from an engine with the invariant no address on the way wraps. -/
theorem loadParamsFetchesExactlyN : Obligations.LoadParamsFetchesExactlyN := by
  unfold Obligations.LoadParamsFetchesExactlyN
  refine ⟨loadParams_zero, fun n s => ?_, fun n s hs => ⟨loadParams_of_fits hs, loadParams_past_end hs⟩⟩
  rw [loadParams]
  cases fetch s with
  | raise e t => rfl
  | ok w t =>
    simp only [Result.bind_ok]
    cases loadParams n t <;> rfl

/-! ### A step by what the decoder answers -/

theorem step_of_fetchInstr_ok {s s1 : State} {i : Instr} (hrun : s.status = .running) (h : fetchInstr s = .ok i s1) :
    step s = mapNext State.releaseLatches (exec i s1) := by
  simp only [step, hrun, stepGate, h]

/-- A raise of the fetch half is entered over the state it left; only the latches are unspecified (60_exceptions.md R98). -/
theorem step_of_fetchInstr_raise {s u : State} {e : ErrorKind} (hrun : s.status = .running) (h : fetchInstr s = .raise e u) :
    ∃ t, step s = .next t ∧
      t = { u with err := some e, status := .errored, op := t.op, imm := t.imm, draws := t.draws } :=
  ⟨_, step_eq_next_iff.2 ⟨hrun, .inl ⟨e, u, h, rfl⟩⟩, rfl⟩

/-- Settles O16: Words that decode are fetched as what they decode to. -/
theorem stepRunsTheDecodedInstruction : Obligations.StepRunsTheDecodedInstruction :=
  fun _ _ _ hs hrun hd => step_of_fetchInstr_ok hrun (fetchInstr_of_decode_ok hs hd)

/-- With no Word at `pc` the opcode Fetch raises there. -/
theorem step_of_no_opcode {s : State} (hs : Inv s) (hrun : s.status = .running)
    (hd : decode s.opc s.upcoming = .error .noOpcode) :
    ∃ t, step s = .next t ∧
      t = { s with err := some .outOfBounds, status := .errored, op := t.op, imm := t.imm, draws := t.draws } := by
  rcases fetchInstr_of_decode_error hs hd with ⟨-, -, hf⟩ | ⟨op, rest, hkind, -, -⟩
  · exact step_of_fetchInstr_raise hrun hf
  · simp at hkind

/-- Any other rejection comes after the opcode Fetch, from Arity or from the operand Fetch. -/
theorem step_of_rejected_opcode {s : State} {d : DecodeError} (hs : Inv s) (hrun : s.status = .running)
    (hd : decode s.opc s.upcoming = .error d) (hne : d ≠ .noOpcode) :
    ∃ t, step s = .next t ∧
      t = { s with pc := s.pc + 1#32, err := some (.ofDecodeError d), status := .errored,
                   op := t.op, imm := t.imm, draws := t.draws } := by
  rcases fetchInstr_of_decode_error hs hd with ⟨hkind, -, -⟩ | ⟨op, rest, -, -, hf⟩
  · exact absurd hkind hne
  · exact step_of_fetchInstr_raise hrun hf

/-- Settles O17: each rejection of the decoder is a raise of the fetch half, which the step enters. -/
theorem stepEntersTheErrorOfARejectedFetch : Obligations.StepEntersTheErrorOfARejectedFetch :=
  fun _ hs hrun => ⟨step_of_no_opcode hs hrun, fun hd => step_of_rejected_opcode hs hrun hd (by decide),
    fun hd => step_of_rejected_opcode hs hrun hd (by decide)⟩

/-- Settles O53: every fetch half and every arm of `exec` ends, so a step does. -/
theorem runningStepAlwaysCompletes : Obligations.RunningStepAlwaysCompletes :=
  fun _ => step_completes

end Sys2Proof.Machine

/-! PROOFS. Run: its start (41_engine_cycle.md R76, R77) and its loop (R78, R79). -/

namespace Sys2Proof.Machine

/-! ### The start -/

theorem startRun_of_loaded {s : State} (hidle : s.status = .idle) (h : s.loaded = true) :
    startRun s = .next { s with status := .running } := by
  simp [startRun, hidle, h]

theorem startRun_of_not_loaded {s : State} (hidle : s.status = .idle) (h : s.loaded = false) :
    startRun s = .refused .runNotLoaded := by
  simp [startRun, hidle, h]

/-- Settles O59: the start asks for Idle, then for a program; construction gives the first, and a load that fits the second. -/
theorem runStartsALoadedIdleEngine : Obligations.RunStartsALoadedIdleEngine := by
  unfold Obligations.RunStartsALoadedIdleEngine
  refine ⟨fun _ => startRun_of_loaded, fun _ => startRun_of_not_loaded, fun _ => startRun_of_not_idle,
    fun c fillO fillR ws hws => ?_⟩
  exact ⟨_, _, loadProgram_of_programWf rfl rfl hws, startRun_of_loaded rfl rfl, rfl, rfl, rfl, rfl, rfl, rfl, rfl⟩

/-! ### The loop -/

theorem runFor_completes (fuel : Nat) (s : State) : ∃ t, runFor fuel s = .next t := by
  induction fuel generalizing s with
  | zero => exact ⟨s, rfl⟩
  | succ fuel ih =>
    by_cases hrun : s.status = .running
    · obtain ⟨t, ht⟩ := step_completes hrun
      rw [runFor_succ_of_step ht]
      exact ih t
    · exact ⟨s, runFor_of_not_running hrun _⟩

/-- More fuel goes on from where less fuel stopped. -/
theorem runFor_add {j : Nat} {s a : State} (h : runFor j s = .next a) (k : Nat) : runFor (j + k) s = runFor k a := by
  induction j generalizing s with
  | zero =>
    cases h
    rw [Nat.zero_add]
  | succ j ih =>
    by_cases hrun : s.status = .running
    · obtain ⟨t, ht⟩ := step_completes hrun
      rw [runFor_succ_of_step ht] at h
      rw [Nat.add_right_comm, runFor_succ_of_step ht, ih h]
    · rw [runFor_of_not_running hrun] at h
      cases h
      rw [runFor_of_not_running hrun, runFor_of_not_running hrun]

/-- A run that has ended stays where it ended under any larger fuel. -/
theorem runFor_of_ended {j k : Nat} {s a : State} (h : runFor j s = .next a) (hend : a.status ≠ .running) (hjk : j ≤ k) :
    runFor k s = .next a := by
  obtain ⟨d, rfl⟩ := Nat.exists_eq_add_of_le hjk
  rw [runFor_add h, runFor_of_not_running hend]

/-- Settles O60: of two fuels that reach the end, the larger one reaches what the smaller one did. -/
theorem runEndIsUnique : Obligations.RunEndIsUnique := by
  unfold Obligations.RunEndIsUnique
  refine ⟨runFor_completes, fun j k s a b ha hb hea heb => ?_, fun j k s a h => runFor_add h k, fun s => ?_⟩
  · rcases Nat.le_total j k with hjk | hkj
    · rw [runFor_of_ended ha hea hjk] at hb
      exact Host.Outcome.next.inj hb
    · rw [runFor_of_ended hb heb hkj] at ha
      exact (Host.Outcome.next.inj ha).symm
  · refine ⟨fun h => ?_, fun h => ?_, fun h => ?_⟩
    · rw [runAnswer, h]
    · rw [runAnswer, h]
    · rcases h with h | h <;> rw [runAnswer, h]

end Sys2Proof.Machine

/-! PROOFS. The system instructions HALT and NOP (42_system.md R80, R81). -/

namespace Sys2Proof.Machine

/-! ### What each arm answers -/

@[simp] theorem exec_halt (s : State) : exec .halt s = .next s.halt := rfl

@[simp] theorem execute_halt (s : State) : execute .halt s = .ok () s := rfl

@[simp] theorem execute_nop (s : State) : execute .nop s = .ok () s := rfl

@[simp] theorem exec_nop (s : State) : exec .nop s = .next s := by
  rw [exec_eq_settle (by decide), execute_nop, settle_ok]

/-- Settles O18: the step writes Halted in place of the arm, which answers the state it got. -/
theorem haltEndsTheRun : Obligations.HaltEndsTheRun :=
  fun s => ⟨exec_halt s, execute_halt s⟩

/-- Settles O19: NOP's arm answers the state it got, and no raise is there to be entered. -/
theorem nopHasNoEffect : Obligations.NopHasNoEffect :=
  exec_nop

/-! ### The frame -/

/-- The phase is no construction argument. -/
@[simp] theorem State.halt_cfg (s : State) : s.halt.cfg = s.cfg := (SameConfiguration.of_halt s).1

/-- Settles O37: NOP's next state is the state itself, HALT's differs from it by the phase alone. -/
theorem systemFrame : Obligations.SystemFrame := by
  unfold Obligations.SystemFrame
  refine fun s t => ⟨fun hnop => ?_, fun hhalt => ?_⟩
  · rw [exec_nop] at hnop
    exact (Host.Outcome.next.inj hnop).symm
  · rw [exec_halt] at hhalt
    obtain rfl := Host.Outcome.next.inj hhalt
    simp

end Sys2Proof.Machine

/-! PROOFS. The operand-stack and output instructions PRINT, PUSH and POP (43_stack_io.md R82 to R84), and the frame they share with
ADD (44_arith.md R86). -/

namespace Sys2Proof.Machine

/-! ### What each arm does to a stack that has the Word, or the room -/

theorem exec_print_of_pop {s : State} {v : Word} {b : BoundedStack} (h : s.os.pop = some (v, b)) :
    exec .print s = .next { s with os := b, out := s.out ++ [v] } := by
  rcases executePrint_cases s with ⟨w, c, hp, e⟩ | ⟨hp, -⟩ <;> rw [h] at hp <;> cases hp
  rw [exec_eq_settle (by decide), e, settle_ok]

theorem exec_pop_of_pop {s : State} {v : Word} {b : BoundedStack} (h : s.os.pop = some (v, b)) :
    exec .pop s = .next { s with os := b } := by
  rcases executePop_cases s with ⟨w, c, hp, e⟩ | ⟨hp, -⟩ <;> rw [h] at hp <;> cases hp
  rw [exec_eq_settle (by decide), e, settle_ok]

theorem exec_push (imm : Word) (s : State) : exec (.push imm) s = settle (push .operand imm s) := rfl

/-- Settles O20: the content's last Word is the one popped, and the port takes it whole. -/
theorem printWritesThePoppedWord : Obligations.PrintWritesThePoppedWord := by
  unfold Obligations.PrintWritesThePoppedWord
  intro s v rest hwf hcontent
  obtain ⟨hpop, hrest⟩ := BoundedStack.pop_of_content hwf hcontent
  exact ⟨exec_print_of_pop hpop, hrest⟩

/-- Settles O21: `top` below the capacity is not the full stack, so the push stores the immediate there and counts it. -/
theorem pushPushesTheImmediate : Obligations.PushPushesTheImmediate := by
  unfold Obligations.PushPushesTheImmediate
  intro s imm hroom
  refine ⟨?_, BoundedStack.content_store hroom⟩
  rw [exec_push, push_of_not_full (n := .operand) (Nat.ne_of_lt hroom), settle_ok]
  rfl

/-- Settles O22: the content's last Word is the one popped; a pop lowers the count over slots it keeps. -/
theorem popDiscardsTheTop : Obligations.PopDiscardsTheTop := by
  unfold Obligations.PopDiscardsTheTop
  intro s v rest hwf hcontent
  obtain ⟨hpop, hrest⟩ := BoundedStack.pop_of_content hwf hcontent
  exact ⟨exec_pop_of_pop hpop, hrest⟩

/-! ### An empty and a full operand stack -/

/-- The arms that take an operand from `os` pop it before anything else (30_encoding.md R56). -/
theorem execute_pops_operand_first {i : Instr} {imm : Word}
    (hi : i = .print ∨ i = .pop ∨ i = .add ∨ i = .jmp ∨ i = .jz imm ∨ i = .jnz imm) (s : State) :
    ∃ f : Word → State → Result Unit, execute i s = (pop .operand s).bind f := by
  rcases hi with rfl | rfl | rfl | rfl | rfl | rfl <;> exact ⟨_, rfl⟩

/-- Settles O29: the first pop raises on the state the arm was given, and the raise skips the rest of the arm. -/
theorem emptyOperandStackUnderflows : Obligations.EmptyOperandStackUnderflows := by
  unfold Obligations.EmptyOperandStackUnderflows
  intro s i imm hempty hi
  have hne : i ≠ .halt := by
    rintro rfl
    simp at hi
  obtain ⟨f, hf⟩ := execute_pops_operand_first hi s
  rw [exec_eq_settle hne, hf, pop_of_empty (n := .operand) hempty, Result.bind_raise, settle_raise]
  rfl

/-- Settles O31: the push of a full stack raises on the state the arm was given. -/
theorem fullOperandStackOverflowsPush : Obligations.FullOperandStackOverflowsPush := by
  unfold Obligations.FullOperandStackOverflowsPush
  intro s imm hfull
  rw [exec_push, push_of_full (n := .operand) hfull, settle_raise]
  rfl

/-! ### The frame -/

theorem BoundedStack.slot_pop {b b' : BoundedStack} {v : Word} (h : b.pop = some (v, b')) : b'.slot = b.slot := by
  obtain ⟨-, -, rfl⟩ := pop_eq_some_iff.1 h
  rfl

theorem BoundedStack.top_pop {b b' : BoundedStack} {v : Word} (h : b.pop = some (v, b')) : b'.top = b.top - 1 := by
  obtain ⟨-, -, rfl⟩ := pop_eq_some_iff.1 h
  rfl

/-- A push stores to slot `top` only (40_stack_controller.md R61). -/
theorem BoundedStack.getElem?_slot_push {b b' : BoundedStack} {v : Word} {k : Nat} (h : b.push v = some b') (hk : k ≠ b.top) :
    b'.slot[k]? = b.slot[k]? := by
  obtain ⟨-, rfl⟩ := push_eq_some_iff.1 h
  exact List.getElem?_set_ne hk.symm

/-- In a step an arm other than HALT's leaves the state its Execute arm left, or that one with error entry. -/
theorem exec_eq_next_state {i : Instr} {s t : State} (hi : i ≠ .halt) (h : exec i s = .next t) :
    t = (execute i s).state ∨ ∃ e, t = (execute i s).state.enterError e := by
  rw [exec_eq_settle hi] at h
  rcases settle_eq_next_iff.1 h with hok | ⟨e, u, hraise, rfl⟩
  · exact .inl (by rw [hok]; rfl)
  · exact .inr ⟨e, by rw [hraise]; rfl⟩

/-- PRINT, PUSH, POP and ADD write `os` and `out` at most, whichever way they end. -/
theorem execute_writes_os_and_out {i : Instr} {imm : Word} (hi : i = .print ∨ i = .push imm ∨ i = .pop ∨ i = .add) (s : State) :
    ∃ b o, (execute i s).state = { s with os := b, out := o } := by
  rcases hi with rfl | rfl | rfl | rfl
  · rcases executePrint_cases s with ⟨v, b, -, e⟩ | ⟨-, e⟩ <;> rw [e] <;> exact ⟨_, _, rfl⟩
  · rcases executePush_cases imm s with ⟨b, -, e⟩ | ⟨-, e⟩ <;> rw [e] <;> exact ⟨_, _, rfl⟩
  · rcases executePop_cases s with ⟨v, b, -, e⟩ | ⟨-, e⟩ <;> rw [e] <;> exact ⟨_, _, rfl⟩
  · rcases executeAdd_cases s with ⟨a, b, b1, b2, b3, -, -, -, e⟩ | ⟨-, e⟩ | ⟨a, b1, -, -, e⟩ | ⟨a, b, b1, b2, -, -, -, e⟩ <;>
      rw [e] <;> exact ⟨_, _, rfl⟩

theorem execute_print_or_pop_slot {i : Instr} (hi : i = .print ∨ i = .pop) (s : State) :
    (execute i s).state.os.slot = s.os.slot := by
  rcases hi with rfl | rfl
  · rcases executePrint_cases s with ⟨v, b, hp, e⟩ | ⟨-, e⟩ <;> rw [e]
    · exact BoundedStack.slot_pop hp
    · rfl
  · rcases executePop_cases s with ⟨v, b, hp, e⟩ | ⟨-, e⟩ <;> rw [e]
    · exact BoundedStack.slot_pop hp
    · rfl

theorem execute_push_getElem?_slot {s : State} {k : Nat} (hk : k ≠ s.os.top) (imm : Word) :
    (execute (.push imm) s).state.os.slot[k]? = s.os.slot[k]? := by
  rcases executePush_cases imm s with ⟨b, hp, e⟩ | ⟨-, e⟩ <;> rw [e]
  · exact BoundedStack.getElem?_slot_push hp hk
  · rfl

/-- ADD pushes where its two pops have lowered `top` to, and an ADD that raises has pushed nothing (44_arith.md R86). -/
theorem execute_add_getElem?_slot {s : State} {k : Nat} (hk : k ≠ s.os.top - 2) :
    (execute .add s).state.os.slot[k]? = s.os.slot[k]? := by
  rcases executeAdd_cases s with ⟨a, b, b1, b2, b3, h1, h2, h3, e⟩ | ⟨-, e⟩ | ⟨a, b1, h1, -, e⟩ | ⟨a, b, b1, b2, h1, h2, -, e⟩ <;>
    rw [e]
  · have htop : b2.top = s.os.top - 2 := by rw [BoundedStack.top_pop h2, BoundedStack.top_pop h1, Nat.sub_sub]
    calc b3.slot[k]? = b2.slot[k]? := BoundedStack.getElem?_slot_push h3 (htop ▸ hk)
      _ = s.os.slot[k]? := by rw [BoundedStack.slot_pop h2, BoundedStack.slot_pop h1]
  · rfl
  · exact congrArg (·[k]?) (BoundedStack.slot_pop h1)
  · exact congrArg (·[k]?) ((BoundedStack.slot_pop h2).trans (BoundedStack.slot_pop h1))

/-- Settles O38: each clause holds of the state the Execute arm left, and error entry writes `err` and `status` only. -/
theorem operandStackFrame : Obligations.OperandStackFrame := by
  unfold Obligations.OperandStackFrame
  intro s t i imm hi h
  have hne : i ≠ .halt := by
    rintro rfl
    simp at hi
  have hend := exec_eq_next_state hne h
  obtain ⟨hos, hout⟩ : t.os = (execute i s).state.os ∧ t.out = (execute i s).state.out := by
    rcases hend with rfl | ⟨e, rfl⟩
    · exact ⟨rfl, rfl⟩
    · exact ⟨rfl, rfl⟩
  obtain ⟨b, o, hw⟩ := execute_writes_os_and_out hi s
  refine ⟨?_, fun a => by rw [exec_prog h], fun hp => hout.trans (execute_state_out hp s), ?_,
    (SameConfiguration.of_exec h).caps_eq.1, fun hp => ?_, fun k hp hk => ?_, fun k hp hk => ?_⟩
  · rcases hend with rfl | ⟨e, rfl⟩
    · rw [hw]
    · rw [hw]
      rfl
  · rcases hend with rfl | ⟨e, rfl⟩
    · exact .inl (by rw [hw]; exact ⟨rfl, rfl⟩)
    · exact .inr ⟨rfl, e, rfl⟩
  · rw [hos, execute_print_or_pop_slot hp]
  · subst hp
    rw [hos, execute_push_getElem?_slot hk]
  · subst hp
    rw [hos, execute_add_getElem?_slot hk]

end Sys2Proof.Machine

/-! PROOFS. The opcode ALU: what ADD's two pops and one push do to a stack under the count bound, and the wrapped sum
(44_arith.md R85 to R87). -/

namespace Sys2Proof.Machine

/-! ### Two pops and a push on one stack -/

/-- A pop frees a slot (40_stack_controller.md R62). -/
theorem BoundedStack.top_lt_cap_of_pop {b b' : BoundedStack} {v : Word} (hb : b.wf = true) (h : b.pop = some (v, b')) :
    b'.top < b'.cap := by
  have hle := wf_iff.1 hb
  obtain ⟨hne, -, rfl⟩ := pop_eq_some_iff.1 h
  exact Nat.lt_of_lt_of_le (Nat.pred_lt hne) hle

/-- The count of a stack whose content ends in two Words. -/
theorem BoundedStack.top_of_content_eq_append_pair {b : BoundedStack} {rest : List Word} {v w : Word} (hb : b.wf = true)
    (h : b.content = rest ++ [w, v]) : b.top = rest.length + 2 := by
  rw [← length_content hb, h, List.length_append]
  rfl

section TwoPops

variable {b b1 b2 : BoundedStack} {v w : Word}

/-- The push that follows two pops has room (44_arith.md R87). -/
theorem BoundedStack.push_ne_none_of_pop_pop (hb : b.wf = true) (h1 : b.pop = some (v, b1)) (h2 : b1.pop = some (w, b2))
    (u : Word) : b2.push u ≠ none := fun hnone =>
  Nat.ne_of_lt (top_lt_cap_of_pop (wf_pop hb h1) h2) (push_eq_none_iff.1 hnone)

/-- The push that follows two pops stores in the slot of the second Word popped, whatever the slots above hold. -/
theorem BoundedStack.eq_of_pop_pop_push {b3 : BoundedStack} {u : Word} (h1 : b.pop = some (v, b1)) (h2 : b1.pop = some (w, b2))
    (h3 : b2.push u = some b3) : b3 = { top := b.top - 1, slot := b.slot.set (b.top - 2) u } := by
  have hne : b1.top ≠ 0 := (pop_eq_some_iff.1 h2).1
  have htop1 : b1.top = b.top - 1 := top_pop h1
  have htop2 : b2.top = b1.top - 1 := top_pop h2
  obtain ⟨-, rfl⟩ := push_eq_some_iff.1 h3
  congr 1
  · omega
  · rw [slot_pop h2, slot_pop h1, htop2, htop1, Nat.sub_sub]

end TwoPops

/-! ### ADD -/

/-- Under the count bound ADD has three ways to end, told apart by how many Words `os` holds (44_arith.md R86, R87):
the push of the sum, and either pop's underflow. -/
theorem executeAdd_cases_of_wf {s : State} (hwf : s.os.wf = true) :
    (∃ a b rest c, s.os.content = rest ++ [b, a] ∧
      c = { top := s.os.top - 1, slot := s.os.slot.set (s.os.top - 2) (aluAdd a b) } ∧ c.content = rest ++ [aluAdd a b] ∧
      execute .add s = .ok () { s with os := c }) ∨
    (s.os.top = 0 ∧ execute .add s = .raise .stackUnderflow s) ∨
    (s.os.top = 1 ∧ execute .add s = .raise .stackUnderflow { s with os := { s.os with top := 0 } }) := by
  rcases executeAdd_cases s with ⟨a, b, b1, b2, b3, h1, h2, h3, e⟩ | ⟨h, e⟩ | ⟨a, b1, h1, h2, e⟩ | ⟨a, b, b1, b2, h1, h2, h3, -⟩
  · have hcontent : s.os.content = b2.content ++ [b, a] := by
      rw [BoundedStack.content_pop h1, BoundedStack.content_pop h2, List.append_assoc, List.singleton_append]
    have hwf2 := BoundedStack.wf_pop (BoundedStack.wf_pop hwf h1) h2
    exact .inl ⟨a, b, b2.content, b3, hcontent, BoundedStack.eq_of_pop_pop_push h1 h2 h3, BoundedStack.content_push hwf2 h3, e⟩
  · exact .inr (.inl ⟨(BoundedStack.pop_eq_none_iff hwf).1 h, e⟩)
  · have hzero : b1.top = 0 := (BoundedStack.pop_eq_none_iff (BoundedStack.wf_pop hwf h1)).1 h2
    obtain ⟨hne, -, rfl⟩ := BoundedStack.pop_eq_some_iff.1 h1
    have hone : s.os.top = 1 := by
      simp only at hzero
      omega
    exact .inr (.inr ⟨hone, by rw [e, hone]⟩)
  · exact absurd h3 (BoundedStack.push_ne_none_of_pop_pop hwf h1 h2 _)

/-- Settles O35: under the count bound ADD ends with its sum pushed or with an underflow. -/
theorem addNeverOverflows : Obligations.AddNeverOverflows := by
  unfold Obligations.AddNeverOverflows
  intro s s' hwf h
  rcases executeAdd_cases_of_wf hwf with ⟨a, b, rest, c, -, -, -, e⟩ | ⟨-, e⟩ | ⟨-, e⟩
  · cases e.symm.trans h
  · cases e.symm.trans h
  · cases e.symm.trans h

/-- Settles O23: a content that ends in two Words rules out both underflows, and these two are the Words popped. -/
theorem addPushesTheWrappedSum : Obligations.AddPushesTheWrappedSum := by
  unfold Obligations.AddPushesTheWrappedSum
  intro s a b rest hwf hcontent
  have htop := BoundedStack.top_of_content_eq_append_pair hwf hcontent
  rcases executeAdd_cases_of_wf hwf with ⟨a', b', rest', c, hc, rfl, hsum, e⟩ | ⟨hzero, -⟩ | ⟨hone, -⟩
  · obtain ⟨rfl, hpair⟩ := List.append_inj' (hcontent.symm.trans hc) rfl
    cases hpair
    exact ⟨by rw [exec_eq_settle (by decide), e, settle_ok, aluAdd], hsum⟩
  · omega
  · omega

/-- Settles O30: one Word is enough for the first pop only, and error entry keeps the stack that pop left. -/
theorem addLosesTheFirstPoppedWord : Obligations.AddLosesTheFirstPoppedWord := by
  unfold Obligations.AddLosesTheFirstPoppedWord
  intro s hwf htop
  rcases executeAdd_cases_of_wf hwf with ⟨a, b, rest, c, hc, -, -, -⟩ | ⟨hzero, -⟩ | ⟨-, e⟩
  · have htwo := BoundedStack.top_of_content_eq_append_pair hwf hc
    omega
  · omega
  · rw [exec_eq_settle (by decide), e, settle_raise]
    rfl

/-! ### The wrapped sum -/

/-- `wrap32` is a ring homomorphism, so the wrapped signed sum is the addition of bit patterns (44_arith.md R85). -/
theorem aluAdd_eq_add (a b : Word) : aluAdd a b = a + b := by
  rw [aluAdd, wrap32, BitVec.ofInt_add, BitVec.ofInt_toInt, BitVec.ofInt_toInt]

/-- Settles O36: both sums are the addition of bit patterns; two Words are enough for both pops, and the push has room; a Word is
0 exactly when its value is. -/
theorem additionWraps : Obligations.AdditionWraps := by
  unfold Obligations.AdditionWraps
  refine ⟨fun a b => ⟨rfl, ?_⟩, fun s hwf htop => ?_, fun v => ?_⟩
  · rw [aluAdd_eq_add, BitVec.ofNat_add, BitVec.ofNat_toNat, BitVec.ofNat_toNat, BitVec.setWidth_eq, BitVec.setWidth_eq]
  · rcases executeAdd_cases_of_wf hwf with ⟨a, b, rest, c, -, -, -, e⟩ | ⟨hzero, -⟩ | ⟨hone, -⟩
    · exact ⟨{ s with os := c }, by rw [exec_eq_settle (by decide), e, settle_ok], rfl, rfl⟩
    · omega
    · omega
  · rw [isZero_iff, ← BitVec.toInt_inj, BitVec.toInt_zero]

end Sys2Proof.Machine

/-! PROOFS. Control transfer: JMP, JZ, JNZ, CALL and RET (45_control.md). Each is one stack operation and then a Jump, or nothing
(R88), so what these two can do says what each instruction can do. -/

namespace Sys2Proof.Machine

/-! ### Each arm as a stack operation and what follows it -/

theorem exec_jmp (s : State) : exec .jmp s = settle ((pop .operand s).bind jump) := rfl

theorem exec_jz (imm : Word) (s : State) :
    exec (.jz imm) s = settle ((pop .operand s).bind fun v u => if isZero v then jump imm u else .ok () u) := rfl

theorem exec_jnz (imm : Word) (s : State) :
    exec (.jnz imm) s = settle ((pop .operand s).bind fun v u => if isZero v then .ok () u else jump imm u) := rfl

theorem exec_call (imm : Word) (s : State) : exec (.call imm) s = settle ((push .ret s.pc s).bind fun _ => jump imm) := rfl

theorem exec_ret (s : State) : exec .ret s = settle ((pop .ret s).bind jump) := rfl

/-! ### The stack operation when it succeeds -/

section PopThenContinue

variable {s : State} {v : Word} {rest : List Word}

theorem pop_operand_of_content (hwf : s.os.wf = true) (hcontent : s.os.content = rest ++ [v]) :
    pop .operand s = .ok v { s with os := { s.os with top := s.os.top - 1 } } :=
  pop_eq_ok_iff.2 ⟨_, (BoundedStack.pop_of_content hwf hcontent).1, rfl⟩

theorem pop_ret_of_content (hwf : s.rs.wf = true) (hcontent : s.rs.content = rest ++ [v]) :
    pop .ret s = .ok v { s with rs := { s.rs with top := s.rs.top - 1 } } :=
  pop_eq_ok_iff.2 ⟨_, (BoundedStack.pop_of_content hwf hcontent).1, rfl⟩

theorem exec_jmp_of_content (hwf : s.os.wf = true) (hcontent : s.os.content = rest ++ [v]) :
    exec .jmp s = settle (jump v { s with os := { s.os with top := s.os.top - 1 } }) := by
  rw [exec_jmp, pop_operand_of_content hwf hcontent, Result.bind_ok]

theorem exec_ret_of_content (hwf : s.rs.wf = true) (hcontent : s.rs.content = rest ++ [v]) :
    exec .ret s = settle (jump v { s with rs := { s.rs with top := s.rs.top - 1 } }) := by
  rw [exec_ret, pop_ret_of_content hwf hcontent, Result.bind_ok]

theorem exec_jz_of_zero (imm : Word) (hwf : s.os.wf = true) (hcontent : s.os.content = rest ++ [v]) (hv : v = 0#32) :
    exec (.jz imm) s = settle (jump imm { s with os := { s.os with top := s.os.top - 1 } }) := by
  rw [exec_jz, pop_operand_of_content hwf hcontent, Result.bind_ok, if_pos (isZero_iff.2 hv)]

theorem exec_jz_of_ne_zero (imm : Word) (hwf : s.os.wf = true) (hcontent : s.os.content = rest ++ [v]) (hv : v ≠ 0#32) :
    exec (.jz imm) s = .next { s with os := { s.os with top := s.os.top - 1 } } := by
  rw [exec_jz, pop_operand_of_content hwf hcontent, Result.bind_ok, if_neg (mt isZero_iff.1 hv), settle_ok]

theorem exec_jnz_of_ne_zero (imm : Word) (hwf : s.os.wf = true) (hcontent : s.os.content = rest ++ [v]) (hv : v ≠ 0#32) :
    exec (.jnz imm) s = settle (jump imm { s with os := { s.os with top := s.os.top - 1 } }) := by
  rw [exec_jnz, pop_operand_of_content hwf hcontent, Result.bind_ok, if_neg (mt isZero_iff.1 hv)]

theorem exec_jnz_of_zero (imm : Word) (hwf : s.os.wf = true) (hcontent : s.os.content = rest ++ [v]) (hv : v = 0#32) :
    exec (.jnz imm) s = .next { s with os := { s.os with top := s.os.top - 1 } } := by
  rw [exec_jnz, pop_operand_of_content hwf hcontent, Result.bind_ok, if_pos (isZero_iff.2 hv), settle_ok]

theorem exec_call_of_room (imm : Word) (hroom : s.rs.top < s.rs.cap) :
    exec (.call imm) s = settle (jump imm { s with rs := { top := s.rs.top + 1, slot := s.rs.slot.set s.rs.top s.pc } }) := by
  rw [exec_call, push_of_not_full (n := .ret) (Nat.ne_of_lt hroom), Result.bind_ok]
  rfl

end PopThenContinue

/-! ### The Jump that ends a step -/

theorem settle_jump_of_inside {a : Word} {s : State} (h : 0 ≤ a.toInt ∧ a.toInt < s.progLen) :
    settle (jump a s) = .next { s with pc := a } := by
  rw [jump_eq_ok_iff.2 ⟨h, rfl⟩, settle_ok]
  rfl

theorem settle_jump_of_outside {a : Word} {s : State} (h : ¬(0 ≤ a.toInt ∧ a.toInt < s.progLen)) :
    settle (jump a s) = .next { s with err := some .jumpOutOfBounds, status := .errored } := by
  rw [jump_eq_raise_iff.2 ⟨h, rfl, rfl⟩, settle_raise]
  rfl

/-! ### Jumps to a target inside the program -/

/-- Settles O24: the content's last Word is the target, and it passes the bounds check. -/
theorem jmpGoesToThePoppedTarget : Obligations.JmpGoesToThePoppedTarget := by
  unfold Obligations.JmpGoesToThePoppedTarget
  intro s t rest hwf hcontent h0 hL
  exact ⟨(exec_jmp_of_content hwf hcontent).trans (settle_jump_of_inside ⟨h0, hL⟩),
    (BoundedStack.pop_of_content hwf hcontent).2⟩

/-- Settles O25: the popped Word decides whether there is a Jump at all. -/
theorem jzBranchesOnZero : Obligations.JzBranchesOnZero := by
  unfold Obligations.JzBranchesOnZero
  intro s v imm rest hwf hcontent
  exact ⟨exec_jz_of_ne_zero imm hwf hcontent,
    fun hv h0 hL => (exec_jz_of_zero imm hwf hcontent hv).trans (settle_jump_of_inside ⟨h0, hL⟩)⟩

/-- Settles O26: the popped Word decides whether there is a Jump at all. -/
theorem jnzBranchesOnNonZero : Obligations.JnzBranchesOnNonZero := by
  unfold Obligations.JnzBranchesOnNonZero
  intro s v imm rest hwf hcontent
  exact ⟨exec_jnz_of_zero imm hwf hcontent,
    fun hv h0 hL => (exec_jnz_of_ne_zero imm hwf hcontent hv).trans (settle_jump_of_inside ⟨h0, hL⟩)⟩

/-- Settles O27: `rs` has room for the link, and the target passes the bounds check. -/
theorem callLinksAndJumps : Obligations.CallLinksAndJumps := by
  unfold Obligations.CallLinksAndJumps
  intro s imm hroom h0 hL
  exact ⟨(exec_call_of_room imm hroom).trans (settle_jump_of_inside ⟨h0, hL⟩), BoundedStack.content_store hroom⟩

/-- Settles O28: the content's last Word is the target, and it passes the bounds check. -/
theorem retReturnsToThePoppedAddress : Obligations.RetReturnsToThePoppedAddress := by
  unfold Obligations.RetReturnsToThePoppedAddress
  intro s t rest hwf hcontent h0 hL
  exact ⟨(exec_ret_of_content hwf hcontent).trans (settle_jump_of_inside ⟨h0, hL⟩),
    (BoundedStack.pop_of_content hwf hcontent).2⟩

/-! ### Where a control transfer raises -/

/-- Settles O32: the push raises on the state the arm was given, and the raise skips the Jump. -/
theorem fullReturnStackOverflowsCall : Obligations.FullReturnStackOverflowsCall := by
  unfold Obligations.FullReturnStackOverflowsCall
  intro s imm hfull
  rw [exec_call, push_of_full (n := .ret) hfull, Result.bind_raise, settle_raise]
  rfl

/-- Settles O33: the pop raises on the state the arm was given, and the raise skips the Jump. -/
theorem emptyReturnStackUnderflowsRet : Obligations.EmptyReturnStackUnderflowsRet := by
  unfold Obligations.EmptyReturnStackUnderflowsRet
  intro s hempty
  rw [exec_ret, pop_of_empty (n := .ret) hempty, Result.bind_raise, settle_raise]
  rfl

/-- Settles O34: the Jump raises on the state that the pop, or CALL's push, has left. -/
theorem failedJumpKeepsTheStackEffect : Obligations.FailedJumpKeepsTheStackEffect := by
  unfold Obligations.FailedJumpKeepsTheStackEffect
  intro s v target rest hout
  refine ⟨fun hwf hc => ?_, fun hwf hc => ⟨fun hv => ?_, fun hv => ?_⟩, fun hroom => ?_, fun hwf hc => ?_⟩
  · exact (exec_jmp_of_content hwf hc).trans (settle_jump_of_outside hout)
  · exact (exec_jz_of_zero target hwf hc hv).trans (settle_jump_of_outside hout)
  · exact (exec_jnz_of_ne_zero target hwf hc hv).trans (settle_jump_of_outside hout)
  · exact (exec_call_of_room target hroom).trans (settle_jump_of_outside hout)
  · exact (exec_ret_of_content hwf hc).trans (settle_jump_of_outside hout)

/-- Settles O57: a return address on `rs` is in [2, `L`], so `L` is the only one outside [0, `L`). -/
theorem retFailsOnlyAtTheProgramEnd : Obligations.RetFailsOnlyAtTheProgramEnd := by
  unfold Obligations.RetFailsOnlyAtTheProgramEnd
  intro s t hs h
  rcases executeRet_cases s with ⟨v, b, -, -, e⟩ | ⟨-, e⟩ | ⟨v, b, hp, hout, -⟩
  · cases e.symm.trans h
  · cases e.symm.trans h
  · have hlast := BoundedStack.getLast?_content_of_pop hp
    obtain ⟨hlow, hhigh⟩ := hs.rsReturnAddresses v (List.mem_of_getLast? hlast)
    exact ⟨v, hlast, by omega⟩

/-! ### The frame -/

/-- An operation begun in `u` that ends with `pc` written at most, or raises with nothing written. -/
def MovesPcOrRaises (u : State) (r : Result Unit) : Prop :=
  (∃ p, r = .ok () (u.setPc p)) ∨ ∃ e, r = .raise e u

namespace MovesPcOrRaises

theorem of_jump (a : Word) (u : State) : MovesPcOrRaises u (jump a u) := by
  rcases jump_cases a u with ⟨-, h⟩ | ⟨-, h⟩
  · exact .inl ⟨a, h⟩
  · exact .inr ⟨_, h⟩

theorem of_ok (u : State) : MovesPcOrRaises u (.ok () u) := .inl ⟨u.pc, rfl⟩

/-- A step that ends so leaves `pc` at most, or enters an error. -/
theorem settle_cases {u t : State} {r : Result Unit} (hr : MovesPcOrRaises u r) (h : settle r = .next t) :
    (∃ p, t = u.setPc p) ∨ ∃ e, t = u.enterError e := by
  rcases hr with ⟨p, rfl⟩ | ⟨e, rfl⟩ <;> cases h
  · exact .inl ⟨p, rfl⟩
  · exact .inr ⟨e, rfl⟩

/-- After a pop the stack has the slots it had, the pop having failed or not. -/
theorem after_pop {f : Word → State → Result Unit} (hf : ∀ v u, MovesPcOrRaises u (f v u)) (n : StackName) (s : State) :
    ∃ b, b.slot = (s.stack n).slot ∧ MovesPcOrRaises (s.setStack n b) ((pop n s).bind f) := by
  rcases pop_cases n s with ⟨v, b, hb, h⟩ | ⟨-, h⟩ <;> rw [h]
  · exact ⟨b, BoundedStack.slot_pop hb, hf v _⟩
  · exact ⟨s.stack n, rfl, .inr ⟨_, by cases n <;> rfl⟩⟩

/-- After a push every slot but the one at `top` holds what it held, the push having failed or not. -/
theorem after_push {f : Unit → State → Result Unit} (hf : ∀ x u, MovesPcOrRaises u (f x u)) (n : StackName) (v : Word)
    (s : State) :
    ∃ b, (∀ k, k ≠ (s.stack n).top → b.slot[k]? = (s.stack n).slot[k]?) ∧
      MovesPcOrRaises (s.setStack n b) ((push n v s).bind f) := by
  rcases push_cases n v s with ⟨b, hb, h⟩ | ⟨-, h⟩ <;> rw [h]
  · exact ⟨b, fun k hk => BoundedStack.getElem?_slot_push hb hk, hf () _⟩
  · exact ⟨s.stack n, fun _ _ => rfl, .inr ⟨_, by cases n <;> rfl⟩⟩

end MovesPcOrRaises

/-- JMP, JZ and JNZ pop `os`, and then Jump or do nothing. -/
theorem execute_branch_movesPcOrRaises {i : Instr} {imm : Word} (hi : i = .jmp ∨ i = .jz imm ∨ i = .jnz imm) (s : State) :
    ∃ b, b.slot = s.os.slot ∧ MovesPcOrRaises (s.setStack .operand b) (execute i s) := by
  rcases hi with rfl | rfl | rfl
  · exact MovesPcOrRaises.after_pop .of_jump .operand s
  · refine MovesPcOrRaises.after_pop (fun v u => ?_) .operand s
    split
    · exact .of_jump imm u
    · exact .of_ok u
  · refine MovesPcOrRaises.after_pop (fun v u => ?_) .operand s
    split
    · exact .of_ok u
    · exact .of_jump imm u

/-- Settles O39: the pop keeps every slot, and error entry follows only what has not written `pc`. -/
theorem branchFrame : Obligations.BranchFrame := by
  unfold Obligations.BranchFrame
  intro s t i imm hi h
  have hne : i ≠ .halt := by
    rintro rfl
    simp at hi
  rw [exec_eq_settle hne] at h
  obtain ⟨b, hslot, hend⟩ := execute_branch_movesPcOrRaises hi s
  rcases hend.settle_cases h with ⟨p, rfl⟩ | ⟨e, rfl⟩
  · exact ⟨rfl, fun _ => rfl, hslot, .inl ⟨rfl, rfl⟩⟩
  · exact ⟨rfl, fun _ => rfl, hslot, .inr ⟨rfl, ⟨e, rfl⟩, rfl⟩⟩

/-- CALL pushes `rs`, RET pops it, and then both Jump. -/
theorem execute_callReturn_movesPcOrRaises {i : Instr} {imm : Word} (hi : i = .call imm ∨ i = .ret) (s : State) :
    ∃ b, (i = .ret → b.slot = s.rs.slot) ∧ (∀ k, i = .call imm → k ≠ s.rs.top → b.slot[k]? = s.rs.slot[k]?) ∧
      MovesPcOrRaises (s.setStack .ret b) (execute i s) := by
  rcases hi with rfl | rfl
  · obtain ⟨b, hslot, hend⟩ := MovesPcOrRaises.after_push (fun _ => .of_jump imm) .ret s.pc s
    exact ⟨b, nofun, fun k _ => hslot k, hend⟩
  · obtain ⟨b, hslot, hend⟩ := MovesPcOrRaises.after_pop .of_jump .ret s
    exact ⟨b, fun _ => hslot, nofun, hend⟩

/-- Settles O40: the push stores to one slot, the pop to none, and error entry follows only what has not written `pc`. -/
theorem callReturnFrame : Obligations.CallReturnFrame := by
  unfold Obligations.CallReturnFrame
  intro s t i imm hi h
  have hne : i ≠ .halt := by
    rintro rfl
    simp at hi
  have hcap : t.rs.cap = s.rs.cap := (SameConfiguration.of_exec h).caps_eq.2
  rw [exec_eq_settle hne] at h
  obtain ⟨b, hret, hcall, hend⟩ := execute_callReturn_movesPcOrRaises hi s
  rcases hend.settle_cases h with ⟨p, rfl⟩ | ⟨e, rfl⟩
  · exact ⟨rfl, fun _ => rfl, hcap, .inl ⟨rfl, rfl⟩, hret, hcall⟩
  · exact ⟨rfl, fun _ => rfl, hcap, .inr ⟨rfl, ⟨e, rfl⟩, rfl⟩, hret, hcall⟩

end Sys2Proof.Machine

/-! PROOFS. The errors of a step: entry over the state the raise left (60_exceptions.md R98), and the kind and `pc` of each (R100). -/

namespace Sys2Proof.Machine

/-! ### Error entry ends the run -/

/-- A raise of the Execute arm is entered over the state it left, as one of the fetch half is (`step_of_fetchInstr_raise`). -/
theorem step_of_execute_raise {s s1 u : State} {i : Instr} {e : ErrorKind} (hrun : s.status = .running) (hi : i ≠ .halt)
    (hf : fetchInstr s = .ok i s1) (hx : execute i s1 = .raise e u) :
    ∃ t, step s = .next t ∧
      t = { u with err := some e, status := .errored, op := t.op, imm := t.imm, draws := t.draws } := by
  refine ⟨(u.enterError e).releaseLatches, ?_, rfl⟩
  rw [step_of_fetchInstr_ok hrun hf, exec_eq_settle hi, hx, settle_raise, mapNext_next]

/-- A step into Errored is the last one of the run. -/
theorem runFor_succ_of_step_errored {s t : State} (h : step s = .next t) (ht : t.status = .errored) (fuel : Nat) :
    runFor (fuel + 1) s = .next t := by
  rw [runFor_succ_of_step h, runFor_of_not_running (by simp [ht])]

theorem runAnswer_of_errored {t : State} (h : t.status = .errored) : runAnswer t = some t.err := by
  rw [runAnswer, h]

/-- Settles O15: the step enters the error wherever it was raised, and from Errored the loop of Run takes no further step. -/
theorem errorEntryWritesErrAndStatusOnly : Obligations.ErrorEntryWritesErrAndStatusOnly := by
  unfold Obligations.ErrorEntryWritesErrAndStatusOnly
  intro s s1 u e hrun hraise
  obtain ⟨t, hstep, ht⟩ : ∃ t, step s = .next t ∧
      t = { u with err := some e, status := .errored, op := t.op, imm := t.imm, draws := t.draws } := by
    rcases hraise with hf | ⟨i, hi, hf, hx⟩
    · exact step_of_fetchInstr_raise hrun hf
    · exact step_of_execute_raise hrun hi hf hx
  have hstatus : t.status = .errored := by rw [ht]
  have herr : t.err = some e := by rw [ht]
  exact ⟨t, hstep, ht, fun fuel =>
    ⟨runFor_succ_of_step_errored hstep hstatus fuel, (runAnswer_of_errored hstatus).trans (congrArg some herr)⟩⟩

/-! ### `pc` after an error -/

/-- The result is no raise, or it leaves `pc` at `p`. -/
def Result.RaisesAt {α : Type} (p : Word) : Result α → Prop
  | .ok _ _ => True
  | .raise _ u => u.pc = p

namespace Result.RaisesAt

theorem ok {α : Type} {p : Word} (a : α) (s : State) : (Result.ok a s).RaisesAt p := trivial

theorem jump (a : Word) (s : State) : (jump a s).RaisesAt s.pc := by
  rcases jump_cases a s with ⟨-, h⟩ | ⟨-, h⟩ <;> rw [h]
  · trivial
  · rfl

theorem push (n : StackName) (v : Word) (s : State) : (push n v s).RaisesAt s.pc := by
  rcases push_cases n v s with ⟨b, -, h⟩ | ⟨-, h⟩ <;> rw [h]
  · trivial
  · rfl

/-- A pop leaves `pc`, so what follows it starts where the pop started. -/
theorem after_pop {α : Type} {f : Word → State → Result α} (hf : ∀ v t, (f v t).RaisesAt t.pc) (n : StackName) (s : State) :
    ((pop n s).bind f).RaisesAt s.pc := by
  rcases pop_cases n s with ⟨v, b, -, h⟩ | ⟨-, h⟩ <;> rw [h]
  · rw [bind_ok, ← s.setStack_pc n b]
    exact hf v _
  · rfl

theorem after_push {α : Type} {f : Unit → State → Result α} (hf : ∀ x t, (f x t).RaisesAt t.pc) (n : StackName) (v : Word)
    (s : State) : ((Machine.push n v s).bind f).RaisesAt s.pc := by
  rcases push_cases n v s with ⟨b, -, h⟩ | ⟨-, h⟩ <;> rw [h]
  · rw [bind_ok, ← s.setStack_pc n b]
    exact hf () _
  · rfl

/-- An Execute arm writes `pc` only by the Jump that ends it, and a failed Jump leaves it (45_control.md R88, log 12). -/
theorem execute (i : Instr) (s : State) : (execute i s).RaisesAt s.pc := by
  cases i with
  | halt | nop => trivial
  | print | pop => exact after_pop (fun _ _ => ok ..) ..
  | push imm => exact push ..
  | add => exact after_pop (fun _ => after_pop (fun _ => push _ _) _) ..
  | jmp | ret => exact after_pop jump ..
  | jz imm =>
    refine after_pop (fun v t => ?_) ..
    cases isZero v
    · trivial
    · exact jump ..
  | jnz imm =>
    refine after_pop (fun v t => ?_) ..
    cases isZero v
    · exact jump ..
    · trivial
  | call imm => exact after_push (fun _ => jump imm) ..

end Result.RaisesAt

/-! ### The errors of a step -/

/-- OutOfBounds of the opcode Fetch is at the program's end: the invariant has `pc` no further (10_state.md R21). -/
theorem toInt_pc_of_no_opcode {s : State} (hs : Inv s) (hd : decode s.opc s.upcoming = .error .noOpcode) :
    s.pc.toInt = s.progLen := by
  rcases decode_error_cases hd with ⟨-, hw⟩ | ⟨op, rest, hkind, -, -⟩ | ⟨op, m, hkind, -, -, -⟩
  · have hlen := hs.pc_add_length_upcoming
    rw [hw, List.length_nil] at hlen
    omega
  · cases hkind
  · cases hkind

/-- OutOfBounds of the operand Fetch is at the program's end: the opcode was the last Word. -/
theorem toInt_pc_succ_of_no_operand {s : State} (hs : Inv s) (hd : decode s.opc s.upcoming = .error .noOperand) :
    (s.pc + 1#32).toInt = s.progLen := by
  rcases decode_error_cases hd with ⟨hkind, -⟩ | ⟨op, rest, hkind, -, -⟩ | ⟨op, m, -, hw, -, -⟩
  · cases hkind
  · cases hkind
  · have hlen := hs.pc_add_length_upcoming
    rw [hw, List.length_singleton] at hlen
    rw [toInt_pc_succ hs.pcLow hs.progLen_le hw]
    omega

theorem decode_ne_malformedEncoding (opc : OpcodeMap) (ws : List Word) : decode opc ws ≠ .error .malformedEncoding := by
  intro h
  rcases decode_error_cases h with ⟨hkind, -⟩ | ⟨op, rest, hkind, -, -⟩ | ⟨op, m, hkind, -, -, -⟩ <;> cases hkind

/-- An error over Words that decode is one of Execute's, raised with `pc` past those Words. -/
theorem error_of_decode_ok {s t : State} {i : Instr} {rest : List Word} (hs : Inv s) (h : step s = .next t)
    (hst : t.status = .errored) (hd : decode s.opc s.upcoming = .ok (i, rest)) :
    ∃ e, t.err = some e ∧ e.OfExecute ∧ t.pc = (s.fetched i).pc := by
  have hsound := Result.Sound.execute_fetched hs hd
  have hpc := Result.RaisesAt.execute i (s.fetched i)
  obtain ⟨hrun, ⟨d, u, hd', -, -⟩ | ⟨r, hd', rfl⟩ | ⟨j, r, hd', -, ⟨u, hx, rfl⟩ | ⟨e, u, hx, rfl⟩⟩⟩ := step_cases hs h <;>
    rw [hd] at hd' <;> cases hd'
  · cases hst
  · have hstatus := execute_state_status i (s.fetched i)
    rw [hx] at hstatus
    have hrunning : u.status = .running := by simpa [Result.state, State.fetched, hrun] using hstatus
    cases hrunning.symm.trans hst
  · rw [hx] at hsound hpc
    exact ⟨e, rfl, hsound.2, hpc⟩

/-- Settles O56: what the decoder rejects is raised by the fetch half, at the program's end or past the opcode; what it accepts
can raise only in Execute, which leaves `pc` past the instruction's Words. -/
theorem pcAfterEachError : Obligations.PcAfterEachError := by
  unfold Obligations.PcAfterEachError
  intro s t hs h hst
  obtain ⟨hrun, -⟩ := step_eq_next_iff.1 h
  cases hd : decode s.opc s.upcoming with
  | error d =>
    cases d with
    | noOpcode =>
      have hend := toInt_pc_of_no_opcode hs hd
      obtain ⟨t', hstep, ht⟩ := step_of_no_opcode hs hrun hd
      cases h.symm.trans hstep
      rw [ht]
      exact ⟨rfl, rfl, hend⟩
    | unknownOpcode =>
      obtain ⟨t', hstep, ht⟩ := step_of_rejected_opcode hs hrun hd (by decide)
      cases h.symm.trans hstep
      rw [ht]
      exact ⟨rfl, rfl⟩
    | noOperand =>
      obtain ⟨t', hstep, ht⟩ := step_of_rejected_opcode hs hrun hd (by decide)
      cases h.symm.trans hstep
      rw [ht]
      exact ⟨rfl, rfl, toInt_pc_succ_of_no_operand hs hd⟩
    | malformedEncoding => exact decode_ne_malformedEncoding _ _ hd
  | ok r =>
    obtain ⟨i, rest⟩ := r
    obtain ⟨e, herr, he, hpc⟩ := error_of_decode_ok hs h hst hd
    rw [herr, hpc, State.fetched, State.latchImm_pc, Instr.length_params, BitVec.ofNat_add, ← BitVec.add_assoc]
    exact ⟨by simpa [ErrorKind.OfExecute] using he, rfl⟩

end Sys2Proof.Machine
